-- ==== Sys2Proof/Word.lean ====
section
/-! DEFINITION. The word types of the Keccak-256 core (spec/00_scope.md R7, R9, R10): every data value is an
unsigned bit vector, bit 0 the least significant. -/

namespace Sys2Proof

/-- One byte of the state or of the input (R7, R12). -/
abbrev Byte := BitVec 8

/-- One 64-bit lane (R7). -/
abbrev Lane := BitVec 64

/-- The lane file `A[0..24]`: the whole 1600-bit Keccak state (R21, R22). -/
abbrev Lanes := Vector Lane 25

/-- One command word, `cmd_word[15:0]` (R9, R80). -/
abbrev CmdWord := BitVec 16

/-- The status port's word (R9, R33). -/
abbrev StatusWord := BitVec 16

/-- The digest port's value (R9, R35). -/
abbrev Digest := BitVec 256

end Sys2Proof
end

