-- ==== Sys2Proof/Config.lean ====
section
/-! DEFINITION. What is fixed for this block (spec/00_scope.md R7: none of it is configurable), and the one parameter
the spec leaves open: the value of every register before the first reset edge (spec/10_state.md R43, D29). -/

namespace Sys2Proof

/-- Bytes of the state: `b` = 1600 bits (R7). -/
abbrev Config.stateBytes : Nat := 200

/-- `DIGEST_LEN`: the only supported digest length (R7, R8). -/
abbrev Config.digestLen : Nat := 32

/-- `RATE` by the source's formula `200 − 2·digestLength` (R7, R8). -/
abbrev Config.rate : Nat := Config.stateBytes - 2 * Config.digestLen

/-- Bytes of the capacity (R7). -/
abbrev Config.capacity : Nat := 64

/-- Rounds of one permutation (R7). -/
abbrev Config.rounds : Nat := 24

/-- The domain-separation byte; 0x01, never SHA3's 0x06 (R2, R7). -/
abbrev Config.domainByte : Byte := 0x01#8

/-- The end-marker byte, XORed at offset `RATE − 1` (R7). -/
abbrev Config.endMarker : Byte := 0x80#8

/-! The open parameter `power_on_state` (R43, D29, I2): one unconstrained value per register. They are free values: no
body, so nothing can be proved of them. Log entry 3. -/

/-- The lane file before the first reset edge: unspecified (R43). Free value, log entry 3. -/
opaque Config.powerOnLanes : Lanes

/-- `cursor` before the first reset edge: unspecified (R43). Free value, log entries 3 and 4. -/
opaque Config.powerOnCursor : Fin 136

/-- `phase` before the first reset edge, by its number: unspecified (R43). Free value, log entries 3 and 4. -/
opaque Config.powerOnPhase : Fin 3

/-- `busy` before the first reset edge: unspecified (R43). Free value, log entry 3. -/
opaque Config.powerOnBusy : Bool

/-- `round` before the first reset edge: unspecified (R43). Free value, log entries 3 and 4. -/
opaque Config.powerOnRound : Fin 24

/-- `err_seq` before the first reset edge: unspecified (R43). Free value, log entry 3. -/
opaque Config.powerOnErrSeq : Bool

/-- `err_ill` before the first reset edge: unspecified (R43). Free value, log entry 3. -/
opaque Config.powerOnErrIll : Bool

end Sys2Proof
end

