-- ==== Sys2Proof/Syntax.lean ====
section
/-! DEFINITION. The commands of the core: one constructor per row of spec/opcode_table.json (spec/30_encoding.md R82).
An illegal word is no command: the decoder names it (`Sys2Proof.IllegalWord`). -/

namespace Sys2Proof

/-- The four commands (R82). -/
inductive Instr where
  /-- NOP, 0x0000 (R141). -/
  | nop
  /-- INIT, 0x1000: the source's Initialize(32) and Reset() (R142). -/
  | init
  /-- ABSORB b, 0x20bb: `b` is DATA, one input byte, used as given (R81, R143). -/
  | absorb (b : Byte)
  /-- FINALIZE, 0x3000 (R144). -/
  | finalize
deriving DecidableEq, Repr

end Sys2Proof
end

