-- ==== Sys2Proof/WellFormed.lean ====
section
/-! DEFINITION. Which terms of `Instr` are commands. The only operand is DATA, an 8-bit value with every value allowed
(spec/30_encoding.md R81), and its type already says so; the checks that can fail are checks of WORDS (RSV, DATA, OP:
`Sys2Proof.CmdWord.legal` in Decode.lean) and of assembly operands (`Sys2Proof.Machine.AsmLine.wellFormed`). -/

namespace Sys2Proof

/-- Every term of `Instr` is a command: NOP, INIT and FINALIZE have no operand, and ABSORB's is any byte (R81). -/
def Instr.wellFormed : Instr → Bool
  | .nop => true
  | .init => true
  | .absorb _ => true
  | .finalize => true

end Sys2Proof
end

