-- ==== Sys2Proof/Decode.lean ====
section
/-! DEFINITION. The command word's fields, the decoder, the encoder and the opcode table's rows
(spec/30_encoding.md R80 to R86, spec/opcode_table.json). Every bit position is the spec's own decision (D4 to D6). -/

namespace Sys2Proof

/-- OP, bits 15:12 (R80). -/
def CmdWord.op (w : CmdWord) : BitVec 4 := w.extractLsb' 12 4

/-- RSV, bits 11:8; 0000 in every legal word (R80). -/
def CmdWord.rsv (w : CmdWord) : BitVec 4 := w.extractLsb' 8 4

/-- DATA, bits 7:0; the operand byte, used exactly as given (R80, R81). -/
def CmdWord.data (w : CmdWord) : Byte := w.extractLsb' 0 8

/-- The check that makes a word legal, field by field (R80, R82): OP names a row, RSV is 0, and DATA is 0 unless the
row is ABSORB's. -/
def CmdWord.legal (w : CmdWord) : Bool :=
  CmdWord.op w < 4#4 && CmdWord.rsv w == 0#4 && (CmdWord.op w == 2#4 || CmdWord.data w == 0#8)

/-- An illegal word, by the class of R84 it falls in. The core does not keep the word (R145). -/
inductive IllegalWord where
  /-- R84(a): OP is 0x4 to 0xF. -/
  | badOp (w : CmdWord)
  /-- R84(b): OP is 0x0 to 0x3 and RSV is not 0. -/
  | badRsv (w : CmdWord)
  /-- R84(c): OP is 0x0, 0x1 or 0x3, RSV is 0 and DATA is not 0. -/
  | badData (w : CmdWord)
deriving DecidableEq, Repr

/-- The word that was presented. -/
def IllegalWord.word : IllegalWord → CmdWord
  | .badOp w => w
  | .badRsv w => w
  | .badData w => w

/-- The class of R84 a word that is no command falls in. -/
def classifyIllegal (w : CmdWord) : IllegalWord :=
  if 4#4 ≤ CmdWord.op w then .badOp w
  else if CmdWord.rsv w ≠ 0#4 then .badRsv w
  else .badData w

/-- Decode, total over the 65536 words, in the order of R83. It reads no state. -/
def decode (w : CmdWord) : Except IllegalWord Instr :=
  if w = 0x0000#16 then .ok .nop
  else if w = 0x1000#16 then .ok .init
  else if w.extractLsb' 8 8 = 0x20#8 then .ok (.absorb (CmdWord.data w))
  else if w = 0x3000#16 then .ok .finalize
  else .error (classifyIllegal w)

/-- A word from its three fields (R80). -/
def CmdWord.ofFields (op rsv : BitVec 4) (data : Byte) : CmdWord := op ++ rsv ++ data

/-- The word of a command (R82). -/
def encode : Instr → CmdWord
  | .nop => CmdWord.ofFields 0x0#4 0x0#4 0x00#8
  | .init => CmdWord.ofFields 0x1#4 0x0#4 0x00#8
  | .absorb b => CmdWord.ofFields 0x2#4 0x0#4 b
  | .finalize => CmdWord.ofFields 0x3#4 0x0#4 0x00#8

/-- One row of spec/opcode_table.json. -/
structure OpcodeRow where
  /-- the bits the row fixes -/
  pattern : CmdWord
  /-- which bits are fixed -/
  mask : CmdWord
deriving DecidableEq, Repr

/-- Does a word lie in a row? -/
def OpcodeRow.holds (r : OpcodeRow) (w : CmdWord) : Bool := w &&& r.mask == r.pattern

/-- The table's row of each command. -/
def opcodeRow : Instr → OpcodeRow
  | .nop => ⟨0x0000#16, 0xFFFF#16⟩
  | .init => ⟨0x1000#16, 0xFFFF#16⟩
  | .absorb _ => ⟨0x2000#16, 0xFF00#16⟩
  | .finalize => ⟨0x3000#16, 0xFFFF#16⟩

/-- The table's four rows, in its order. -/
def opcodeTable : List OpcodeRow :=
  [⟨0x0000#16, 0xFFFF#16⟩, ⟨0x1000#16, 0xFFFF#16⟩, ⟨0x2000#16, 0xFF00#16⟩, ⟨0x3000#16, 0xFFFF#16⟩]

/-- The 16-bit word that a table word of `nbits` bits stands for: bits above `nbits` are 0, and there is no second word
(R86). Log entry 15. -/
def tableWord (nbits w : Nat) : CmdWord := BitVec.ofNat 16 (w % 2 ^ nbits)

/-- What the decoder reads from a table word; `none` where the word is illegal. -/
def decodeTableWord (nbits w : Nat) : Option Instr :=
  match decode (tableWord nbits w) with
  | .ok i => some i
  | .error _ => none

end Sys2Proof
end

