-- ==== Sys2Proof/Machine/State.lean ====
section
/-! DEFINITION. The registers of the core (spec/10_state.md R20 to R28), the input ports of each cycle (R30), the two
error events (spec/60_exceptions.md R180 to R183), the reasons a step could stop (there are none), and the state after
reset (R42). -/

namespace Sys2Proof.Machine

/-- `phase` (R24). Encoding 3 is reserved and never reached (R39), so it has no constructor (I4, log entry 4). -/
inductive Phase where
  /-- 0: accepting ABSORB and FINALIZE -/
  | ready
  /-- 1: padding applied, the final permutation runs -/
  | finalizing
  /-- 2: the digest is available; ABSORB and FINALIZE are misuse -/
  | finalized
deriving DecidableEq, Repr

/-- The input ports in one cycle, sampled at the rising edge that ends it (R30, R31). -/
structure PortIn where
  /-- `rst`: synchronous reset, active high -/
  rst : Bool
  /-- `cmd_valid`: the host presents a word -/
  cmdValid : Bool
  /-- `cmd_word` -/
  cmdWord : CmdWord
deriving DecidableEq, Repr

/-- A cycle in which the host drives nothing: no reset and no word (R140, last line). -/
def PortIn.idle : PortIn := { rst := false, cmdValid := false, cmdWord := 0#16 }

/-- A cycle in which the host presents the word `w`. -/
def PortIn.present (w : CmdWord) : PortIn := { rst := false, cmdValid := true, cmdWord := w }

/-- A cycle in which the host holds `rst = 1`. -/
def PortIn.reset : PortIn := { rst := true, cmdValid := false, cmdWord := 0#16 }

/-- The core's architectural state is exactly its registers (R20); `drive` is the model's own field. -/
structure State where
  /-- The Keccak state, lane view `A[0..24]` (R21, R22); the byte view is computed from it (R61, log entry 5). -/
  lanes : Lanes
  /-- `cursor`, the next free byte offset in the rate (R23); legal values 0..135 (R39(a), log entry 4). -/
  cursor : Fin 136
  /-- `phase` (R24). -/
  phase : Phase
  /-- `busy`: the PE runs a permutation (R25). -/
  busy : Bool
  /-- `round`: the index of the next round the PE applies (R26); legal values 0..23 (R39(b), log entry 4). -/
  round : Fin 24
  /-- `err_seq`, sticky (R27). -/
  errSeq : Bool
  /-- `err_ill`, sticky (R28). -/
  errIll : Bool
  /-- What the host drives on the input ports, cycle by cycle; the head is the present cycle. Past the end the host
  drives nothing. The model's own field, log entry 1. -/
  drive : List PortIn
deriving DecidableEq, Repr

/-- The two error events (R180). Neither stops the machine. -/
inductive ErrorEvent where
  /-- ABSORB or FINALIZE accepted in phase FINALIZED (R181) -/
  | seqError
  /-- an accepted word that decodes to no command (R182); the word is not kept -/
  | illegalCommand (w : CmdWord)
deriving DecidableEq, Repr

/-- Why the machine could stop with a fault: never. The spec lets nothing stop the core (R180, R185), so this type has
no constructor, nobody raises one, and every step answers a next state (log entry 10). Safe. -/
inductive Fault where
deriving DecidableEq, Repr

/-- Why an instruction could have no meaning. -/
inductive Refusal where
  /-- Raised by an arm of `exec` for an instruction not modelled yet; no arm raises it now. Safe: it only stops. -/
  | notModelled (mnemonic : String)
deriving DecidableEq, Repr

/-- All 1600 bits 0 (R21, R42). -/
def zeroLanes : Lanes := Vector.replicate 25 0#64

/-- The state right after a reset edge (R42). The host's `drive` is empty there (DESIGN CHOICE, log entry 1). -/
def State.reset : State where
  lanes := zeroLanes
  cursor := 0
  phase := .ready
  busy := false
  round := 0
  errSeq := false
  errIll := false
  drive := []

/-- The phase with a given number (R24). -/
def Phase.ofFin (n : Fin 3) : Phase :=
  if n = 0 then .ready else if n = 1 then .finalizing else .finalized

/-- The state before the first reset edge: every register an unspecified value (R43, D29), under whatever the host
drives. Log entry 3. -/
def State.powerOn (drive : List PortIn) : State where
  lanes := Config.powerOnLanes
  cursor := Config.powerOnCursor
  phase := Phase.ofFin Config.powerOnPhase
  busy := Config.powerOnBusy
  round := Config.powerOnRound
  errSeq := Config.powerOnErrSeq
  errIll := Config.powerOnErrIll
  drive := drive

end Sys2Proof.Machine
end

