-- ==== Sys2Proof/Machine/Ops.lean ====
section
/-! DEFINITION. The named operations over the registers: the byte view of the state (spec/00_scope.md R12,
spec/20_memory.md R61, R62), raising an error event (R13, R181, R182), zeroing by INIT and by reset (R142, R200),
starting the PE (spec/40_permutation.md R115), and the host's move to its next cycle. -/

namespace Sys2Proof.Machine

/-! ### The byte view -/

/-- The lane a state byte lies in (R61). -/
def laneOf (i : Fin 200) : Fin 25 := ⟨i.val / 8, by omega⟩

/-- The lowest bit of a state byte within its lane (R61, R62). -/
def byteShift (i : Fin 200) : Nat := 8 * (i.val % 8)

/-- `S[i]` (R12): byte `i` is bits `[8(i%8)+7 : 8(i%8)]` of lane `A[i/8]` (R61). -/
def getByte (A : Lanes) (i : Fin 200) : Byte := (A[laneOf i]).extractLsb' (byteShift i) 8

/-- A lane with the eight bits from `sh` upwards replaced (R62). -/
def insertByte (x : Lane) (sh : Nat) (b : Byte) : Lane :=
  (x &&& ~~~((0xFF#64) <<< sh)) ||| ((b.setWidth 64) <<< sh)

/-- `S[i] <- b` (R12): exactly those eight bits change (R62). -/
def setByte (A : Lanes) (i : Fin 200) (b : Byte) : Lanes :=
  A.set (laneOf i) (insertByte A[laneOf i] (byteShift i) b)

/-- `S[i] <- S[i] ^ b`: the read-modify-write of ABSORB and FINALIZE (R66). -/
def xorByte (A : Lanes) (i : Fin 200) (b : Byte) : Lanes := setByte A i (getByte A i ^^^ b)

/-- `MemRead(addr, n)`: the little-endian value of `n` state bytes (R12). It never reaches outside the state. -/
def memRead (A : Lanes) (addr : Nat) : (n : Nat) → addr + n ≤ 200 → BitVec (8 * n)
  | 0, _ => 0#0
  | n + 1, h => (getByte A ⟨addr + n, by omega⟩ ++ memRead A addr n (by omega)).cast (by omega)

/-- `MemWrite(addr, n, v)`: `S[addr+j] <- v[8j+7:8j]` for j below n (R12). It never reaches outside the state. -/
def memWrite (A : Lanes) (addr : Nat) : (n : Nat) → addr + n ≤ 200 → BitVec (8 * n) → Lanes
  | 0, _, _ => A
  | n + 1, h, v =>
    setByte (memWrite A addr n (by omega) (v.setWidth (8 * n))) ⟨addr + n, by omega⟩ (v.extractLsb' (8 * n) 8)

/-- Bit `n` of the 1600-bit state: bit `n % 64` of lane `n / 64` (R61). -/
def stateBit (A : Lanes) (n : Fin 1600) : Bool := (A[n.val / 64]'(by omega)).getLsbD (n.val % 64)

/-! ### Register updates -/

/-- XOR one byte into the state, leaving every other register. -/
def State.xorState (s : State) (i : Fin 200) (b : Byte) : State := { s with lanes := xorByte s.lanes i b }

/-- Write the cursor. -/
def State.setCursor (s : State) (c : Fin 136) : State := { s with cursor := c }

/-- Write the phase. -/
def State.setPhase (s : State) (p : Phase) : State := { s with phase := p }

/-- Start the PE: `busy <- 1`, `round <- 0` (R115). -/
def State.startPE (s : State) : State := { s with busy := true, round := 0 }

/-- INIT's writes (R142): every register but `busy` (R151), which is 0 at any accept edge. -/
def State.clearRegs (s : State) : State :=
  { s with lanes := zeroLanes, cursor := 0, phase := .ready, round := 0, errSeq := false, errIll := false }

/-- A reset edge (R200): every register takes its value of R42, whatever the core was doing. -/
def State.resetRegs (s : State) : State := { State.reset with drive := s.drive }

/-- The host moves on to its next cycle. -/
def State.nextCycle (s : State) : State := { s with drive := s.drive.tail }

/-- The input ports in the present cycle. -/
def State.port (s : State) : PortIn := s.drive.headD .idle

/-! ### Error events -/

/-- `raise` (R13): set the event's sticky flag and change nothing else (R181, R182, R185). Taking an exception on this
core is this and no more: no saved state, no vector, no mode. There is no return from it (R186). -/
def State.raise (s : State) : ErrorEvent → State
  | .seqError => { s with errSeq := true }
  | .illegalCommand _ => { s with errIll := true }

/-- The cause codes of R181 and R182: names for the reader, held by no register (R183). -/
def ErrorEvent.causeCode : ErrorEvent → Nat
  | .seqError => 1
  | .illegalCommand _ => 2

/-- The status bit each event is recorded in (R181, R182). -/
def ErrorEvent.statusBit : ErrorEvent → Nat
  | .seqError => 3
  | .illegalCommand _ => 4

end Sys2Proof.Machine
end

