-- ==== Sys2Proof/Machine/Operands.lean ====
section
/-! DEFINITION. Where the commands read and write: the byte addresses of ABSORB and FINALIZE and the region map of the
state byte space (spec/20_memory.md R60, R63, R64, R66). -/

namespace Sys2Proof.Machine

/-- A rate offset as a state byte address (R63). -/
def rateAddr (c : Fin 136) : Fin 200 := ⟨c.val, by omega⟩

/-- The byte ABSORB writes, and the byte that takes FINALIZE's domain byte: `S[cursor]` (R60, R66). -/
def cursorAddr (s : State) : Fin 200 := rateAddr s.cursor

/-- The last rate offset, where a block is full (R143). -/
def lastOffset : Fin 136 := 135

/-- The byte that takes FINALIZE's end marker: `S[135]` (R60, R144). -/
def endMarkerAddr : Fin 200 := rateAddr lastOffset

/-- The state bytes a command read-modify-writes when it is carried out (R66); INIT zeroes the whole state instead
(R142, log entry 6). -/
def xorAddrs (i : Instr) (s : State) : List (Fin 200) :=
  match i with
  | .nop => []
  | .init => []
  | .absorb _ => [cursorAddr s]
  | .finalize => [cursorAddr s, endMarkerAddr]

/-- The regions of the state byte space (R63). -/
inductive Region where
  /-- bytes 0..31, inside the rate, shown on `digest_o` -/
  | digestWindow
  /-- bytes 32..134 -/
  | rate
  /-- byte 135, the end marker's -/
  | lastRateByte
  /-- bytes 136..199, touched by the PE only -/
  | capacity
deriving DecidableEq, Repr

/-- The region of each byte (R63). -/
def regionOf (i : Fin 200) : Region :=
  if i.val ≤ 31 then .digestWindow
  else if i.val ≤ 134 then .rate
  else if i.val = 135 then .lastRateByte
  else .capacity

end Sys2Proof.Machine
end

