-- ==== Sys2Proof/Machine/Flags.lean ====
section
/-! DEFINITION. The output ports, combinational from the registers and `rst` (spec/10_state.md R32 to R35, R37). -/

namespace Sys2Proof.Machine

/-- One status bit as a bit vector. -/
def bit (b : Bool) : BitVec 1 := BitVec.ofBool b

/-- `phase`'s encoding (R24). -/
def phaseCode : Phase → BitVec 2
  | .ready => 0#2
  | .finalizing => 1#2
  | .finalized => 2#2

/-- `cmd_ready = (rst = 0) & (busy = 0)` (R32). -/
def cmdReady (rst : Bool) (s : State) : Bool := !rst && !s.busy

/-- Is a word accepted at the edge that ends a cycle with these inputs? (R31) -/
def accepts (p : PortIn) (s : State) : Bool := !p.rst && p.cmdValid && cmdReady p.rst s

/-- `digest_valid = (phase = FINALIZED)` (R34). -/
def digestValid (s : State) : Bool := s.phase == .finalized

/-- `status_o` (R33): `{cursor[7:0], 2'b00, digest_valid, err_ill, err_seq, phase[1:0], busy}`. -/
def statusO (s : State) : StatusWord :=
  (BitVec.ofNat 8 s.cursor.val) ++ (0#2) ++ bit (digestValid s) ++ bit s.errIll ++ bit s.errSeq
    ++ phaseCode s.phase ++ bit s.busy

/-- `{A[3], A[2], A[1], A[0]}`: the first 32 state bytes (R35). -/
def digestWindow (A : Lanes) : Digest := A[3] ++ A[2] ++ A[1] ++ A[0]

/-- `digest_o` (R35): the window while `digest_valid = 1`, else 0. -/
def digestO (s : State) : Digest := if digestValid s then digestWindow s.lanes else 0#256

/-- The output ports (R30). -/
structure PortOut where
  /-- `cmd_ready` -/
  ready : Bool
  /-- `status_o` -/
  status : StatusWord
  /-- `digest_valid` -/
  valid : Bool
  /-- `digest_o` -/
  digest : Digest
deriving DecidableEq, Repr

/-- What the core gives back in the present cycle (R217). -/
def outputs (s : State) : PortOut :=
  { ready := cmdReady s.port.rst s, status := statusO s, valid := digestValid s, digest := digestO s }

end Sys2Proof.Machine
end

