-- ==== Sys2Proof/Machine/Tables.lean ====
section
/-! DEFINITION. The read-only constant tables (spec/10_state.md R29, spec/40_permutation.md R100 to R103). The source
lost them; the spec supplies them from general knowledge and its rules govern (log entry 7). -/

namespace Sys2Proof.Machine

/-- The twelve rows of R100's table as it is printed: row r holds `RC[r]` and `RC[r + 12]`. -/
def roundConstantRows : Vector (Lane × Lane) 12 :=
  #v[(0x0000000000000001, 0x000000008000808B),
     (0x0000000000008082, 0x800000000000008B),
     (0x800000000000808A, 0x8000000000008089),
     (0x8000000080008000, 0x8000000000008003),
     (0x000000000000808B, 0x8000000000008002),
     (0x0000000080000001, 0x8000000000000080),
     (0x8000000080008081, 0x000000000000800A),
     (0x8000000000008009, 0x800000008000000A),
     (0x000000000000008A, 0x8000000080008081),
     (0x0000000000000088, 0x8000000000008080),
     (0x0000000080008009, 0x0000000080000001),
     (0x000000008000000A, 0x8000000080008008)]

/-- `RC[0..23]` (R100): the left column of the table for rounds 0 to 11, the right one for rounds 12 to 23. -/
def roundConstants : Vector Lane 24 :=
  Vector.ofFn fun r =>
    if h : r.val < 12 then roundConstantRows[r.val].1 else (roundConstantRows[r.val - 12]'(by omega)).2

/-- `ROT[0..23]` in the order the ρ/π pass uses them (R101). -/
def rotAmounts : List Nat :=
  [1, 3, 6, 10, 15, 21, 28, 36, 45, 55, 2, 14, 27, 41, 56, 8, 25, 43, 62, 18, 39, 61, 20, 44]

/-- `PI[0..23]` (R102). -/
def piLanes : List (Fin 25) :=
  [10, 7, 11, 17, 18, 3, 5, 16, 8, 21, 24, 4, 15, 23, 19, 13, 12, 2, 20, 14, 22, 9, 6, 1]

/-- The ρ/π map by destination (R103): source lane and rotation of each destination lane; lane 0 keeps its place. -/
def rhopiTable : Vector (Fin 25 × Nat) 25 :=
  #v[(0, 0), (6, 44), (12, 43), (18, 21), (24, 14), (3, 28), (9, 20), (10, 3), (16, 45), (22, 61),
     (1, 1), (7, 6), (13, 25), (19, 8), (20, 18), (4, 27), (5, 36), (11, 10), (17, 15), (23, 56),
     (2, 62), (8, 55), (14, 39), (15, 41), (21, 2)]

/-- The ρ offsets `r[x, y]` of lane `x + 5y` (R103, FIPS 202 form). -/
def rhoOffsets : Vector Nat 25 :=
  #v[0, 1, 62, 28, 27, 36, 44, 6, 55, 20, 3, 10, 43, 25, 39, 41, 45, 15, 21, 8, 18, 2, 61, 56, 14]

end Sys2Proof.Machine
end

