-- ==== Sys2Proof/Machine/Permutation.lean ====
section
/-! DEFINITION. The permutation engine: Keccak-f[1600] and its one-round-per-edge schedule
(spec/40_permutation.md R106 to R117). -/

namespace Sys2Proof.Machine

/-- Circular left rotation (R106). Used with 1 ≤ n ≤ 63 only; other n by `n % 64`, as R106 allows (log entry 8). -/
def rotl64 (x : Lane) (n : Nat) : Lane := (x <<< (n % 64)) ||| (x >>> (64 - n % 64))

/-- The five column parities `C[x]` of θ (R107), all taken from the input lanes. -/
def thetaC (A : Lanes) : Vector Lane 5 :=
  Vector.ofFn fun x => A[x.val] ^^^ A[x.val + 5] ^^^ A[x.val + 10] ^^^ A[x.val + 15] ^^^ A[x.val + 20]

/-- The five offsets `D[x] = C[(x+4)%5] ^ rotl64(C[(x+1)%5], 1)` (R107; the formula, not the prose: C1). -/
def thetaD (C : Vector Lane 5) : Vector Lane 5 :=
  Vector.ofFn fun x => C[(x.val + 4) % 5] ^^^ rotl64 C[(x.val + 1) % 5] 1

/-- θ (R107). -/
def theta (A : Lanes) : Lanes :=
  let D := thetaD (thetaC A)
  Vector.ofFn fun k => A[k] ^^^ D[k.val % 5]

/-- One step of the ρ/π pass (R108): lane `j` takes the carried lane rotated by `n`, and its old value is carried on. -/
def rhopiStep (p : Lanes × Lane) (e : Fin 25 × Nat) : Lanes × Lane :=
  (p.1.set e.1 (rotl64 p.2 e.2), p.1[e.1])

/-- ρ and π in one pass (R108): the first lane carried is `A[1]`; the last carried value is discarded. -/
def rhopi (A : Lanes) : Lanes := ((piLanes.zip rotAmounts).foldl rhopiStep (A, A[1])).1

/-- χ (R110): every lane from its row's values before χ (C7). -/
def chi (A : Lanes) : Lanes :=
  Vector.ofFn fun k =>
    A[k] ^^^ (~~~A[(k.val % 5 + 1) % 5 + 5 * (k.val / 5)] &&& A[(k.val % 5 + 2) % 5 + 5 * (k.val / 5)])

/-- ι (R111). -/
def iota (A : Lanes) (r : Fin 24) : Lanes := A.set 0 (A[0] ^^^ roundConstants[r])

/-- `Round(A, r) = iota(chi(rhopi(theta(A))), r)` (R112). -/
def keccakRound (A : Lanes) (r : Fin 24) : Lanes := iota (chi (rhopi (theta A))) r

/-- The rounds `r, r+1, …, 23` applied in index order. -/
def roundsFrom (r : Nat) (A : Lanes) : Lanes := ((List.finRange 24).drop r).foldl keccakRound A

/-- Keccak-f[1600]: the 24 rounds in index order (R113). -/
def keccakF (A : Lanes) : Lanes := roundsFrom 0 A

/-- What the end of a permutation makes of the phase (R114): FINALIZING becomes FINALIZED. -/
def finishPhase : Phase → Phase
  | .ready => .ready
  | .finalizing => .finalized
  | .finalized => .finalized

/-- The PE's round step, the whole effect of an edge with `rst = 0` and `busy = 1` (R114). -/
def State.peRound (s : State) : State :=
  if s.round = 23 then
    { s with lanes := keccakRound s.lanes s.round, busy := false, round := 0, phase := finishPhase s.phase }
  else
    { s with lanes := keccakRound s.lanes s.round, round := s.round + 1 }

/-- The state after the permutation in progress has finished, with no other event (R116); the state itself when the PE
is idle. Not an edge of the core: a name for where its round edges lead. -/
def State.settle (s : State) : State :=
  if s.busy then
    { s with lanes := roundsFrom s.round.val s.lanes, busy := false, round := 0, phase := finishPhase s.phase }
  else s

end Sys2Proof.Machine
end

