-- ==== Sys2Proof/Machine/Sponge.lean ====
section
/-! DEFINITION. The sponge controller's commands: what each does at its accept edge (spec/41_sponge.md R141 to R146). -/

namespace Sys2Proof.Machine

/-- NOP (R141): legal in every phase, changes nothing. -/
def execNop (s : State) : Host.Outcome State Fault Refusal := .next s

/-- INIT (R142): legal in every phase. -/
def execInit (s : State) : Host.Outcome State Fault Refusal := .next s.clearRegs

/-- ABSORB's cursor update (R143): the next offset, or at the end of the block offset 0 and the PE starts (R115). -/
def State.advanceCursor (s : State) : State :=
  if s.cursor = lastOffset then (s.setCursor 0).startPE else s.setCursor (s.cursor + 1)

/-- ABSORB b (R143): misuse in phase FINALIZED (R146); else XOR the byte in at the cursor, then advance the cursor. -/
def execAbsorb (b : Byte) (s : State) : Host.Outcome State Fault Refusal :=
  if s.phase = .finalized then .next (s.raise .seqError)
  else .next (s.xorState (cursorAddr s) b).advanceCursor

/-- The padding of FINALIZE (R144): the domain byte at the cursor, then the end marker at 135; both XORs hit the same
byte when the cursor is 135 (C5). -/
def State.pad (s : State) : State :=
  (s.xorState (cursorAddr s) Config.domainByte).xorState endMarkerAddr Config.endMarker

/-- FINALIZE (R144): misuse in phase FINALIZED (R146); else pad, enter FINALIZING and start the PE. The cursor is not
written (D18). -/
def execFinalize (s : State) : Host.Outcome State Fault Refusal :=
  if s.phase = .finalized then .next (s.raise .seqError)
  else .next (s.pad.setPhase .finalizing).startPE

end Sys2Proof.Machine
end

