-- ==== Sys2Proof/Machine/Edge.lean ====
section
/-! DEFINITION. One rising clock edge under given input ports (spec/41_sponge.md R140, spec/60_exceptions.md R184), and
how a command word is placed on the port. -/

namespace Sys2Proof.Machine

/-- An accepted word (R83, R140): decode comes before any phase check (R184), and a word that is no command raises
IllegalCommand in every phase (R145). -/
def acceptWord (w : CmdWord) (s : State) : Host.Outcome State Fault Refusal :=
  match decode w with
  | .ok i => exec i s
  | .error e => .next (s.raise (.illegalCommand e.word))

/-- The core's clock step under inputs `p`, in R140's order of precedence: reset, round step, accepted word, nothing. -/
def edge (p : PortIn) (s : State) : Host.Outcome State Fault Refusal :=
  if p.rst then .next s.resetRegs
  else if s.busy then .next s.peRound
  else if p.cmdValid then acceptWord p.cmdWord s
  else .next s

/-- The state with `w` presented on the command port in the present cycle, and the core ready to take it: a permutation
in progress is taken to its end first, since no command is accepted before (R32, R211). Log entry 2. -/
def State.presentWord (s : State) (w : CmdWord) : State :=
  { s.settle with drive := PortIn.present w :: s.drive.tail }

end Sys2Proof.Machine
end

