-- ==== Sys2Proof/Machine/Step.lean ====
section
/-! DEFINITION. One step of the machine is one rising edge of `clk` (spec/00_scope.md R18, spec/41_sponge.md R140): the
core takes the edge under the present cycle's inputs, and the host moves on to its next cycle. -/

namespace Sys2Proof.Machine

/-- One clock edge. -/
def step (s : State) : Host.Outcome State Fault Refusal := edge s.port s.nextCycle

/-- `s` with a command word of the opcode table presented so that the next step runs it (log entry 2). -/
def State.withFetchWord (s : State) (nbits w : Nat) : State := s.presentWord (tableWord nbits w)

end Sys2Proof.Machine
end

