-- ==== Sys2Proof/Machine/Assembler.lean ====
section
/-! DEFINITION. The host's notation: the command assembly language, its pseudo-instructions and the source's operations
as command sequences (spec/30_encoding.md R87 to R89, spec/41_sponge.md R147). The core sees only the words. -/

namespace Sys2Proof.Machine

/-- One line of the command assembly language: a command, `.word`, or a pseudo-instruction (R87, R88). -/
inductive AsmLine where
  | nop
  | init
  | absorb (imm8 : Nat)
  | finalize
  /-- `.word imm16`: the only way to write an illegal word (R87) -/
  | word (imm16 : Nat)
  | reset
  | absorbBytes (bs : List Nat)
  | absorbStr (text : List Char)
  | absorbFill (v n : Nat)
  | hash (bs : List Nat)
  | waitDigest
deriving DecidableEq, Repr

/-- Is every operand in its range? A value outside 0..255 is an assembly error, not a word (R87); `text` is ASCII
(R88). DESIGN CHOICE, log entry 13: R87 gives no range for `imm16`, and a value above 65535 is an assembly error here; R88
gives no bound for the count of ABSORB_FILL, and there is none here. -/
def AsmLine.wellFormed : AsmLine → Bool
  | .nop | .init | .finalize | .reset | .waitDigest => true
  | .absorb v => v < 256
  | .word v => v < 65536
  | .absorbBytes bs | .hash bs => bs.all (· < 256)
  | .absorbStr text => text.all (·.toNat < 128)
  | .absorbFill v _ => v < 256

/-- The word of `ABSORB v`: 0x2000 + v (R87). -/
def absorbWord (v : Nat) : CmdWord := BitVec.ofNat 16 (0x2000 + v)

/-- The word of INIT (R87). -/
def initWord : CmdWord := 0x1000#16

/-- The word of FINALIZE (R87). -/
def finalizeWord : CmdWord := 0x3000#16

/-- The words a line with operands in range expands to (R87, R88). -/
def AsmLine.expand : AsmLine → List CmdWord
  | .nop => [0x0000#16]
  | .init => [initWord]
  | .absorb v => [absorbWord v]
  | .finalize => [finalizeWord]
  | .word v => [BitVec.ofNat 16 v]
  | .reset => [initWord]
  | .absorbBytes bs => bs.map absorbWord
  | .absorbStr text => text.map (absorbWord ·.toNat)
  | .absorbFill v n => List.replicate n (absorbWord v)
  | .hash bs => initWord :: bs.map absorbWord ++ [finalizeWord]
  | .waitDigest => []

/-- The words of a program; `none` is an assembly error (R87). -/
def assembleLines (p : List AsmLine) : Option (List CmdWord) :=
  if p.all AsmLine.wellFormed then some (p.flatMap AsmLine.expand) else none

/-! ### The source's operations (R147) -/

/-- The source's streaming object (R147). Reading the digest after `finalize` is the host's. -/
inductive SourceOp where
  /-- `new(32)`, Initialize(32) -/
  | new
  | absorb (bytes : List Byte)
  | finalize
  | reset
  /-- the one-shot `hash(bytes)` -/
  | hash (bytes : List Byte)
deriving DecidableEq, Repr

/-- The words of the message's bytes, one ABSORB a byte, in order (R147). -/
def absorbWords (m : List Byte) : List CmdWord := m.map fun b => encode (.absorb b)

/-- The words of `hash(m)`: INIT, the ABSORBs, FINALIZE (R88, R147). -/
def hashWords (m : List Byte) : List CmdWord := encode .init :: absorbWords m ++ [encode .finalize]

/-- The command sequence of a source operation (R147). -/
def SourceOp.words : SourceOp → List CmdWord
  | .new => [encode .init]
  | .absorb bytes => absorbWords bytes
  | .finalize => [encode .finalize]
  | .reset => [encode .init]
  | .hash bytes => hashWords bytes

/-! ### The text form

The text is read as a list of characters. Where R87 and R88 leave the spelling open (blanks, tabs, empty lines, upper-case
`0X`, the literals of `imm16` and of a count, a quote inside a string), log entry 13 says what is taken. -/

/-- A token of the assembly text. -/
inductive AsmToken where
  /-- a mnemonic, in upper case -/
  | name (cs : List Char)
  | number (n : Nat)
  | string (cs : List Char)
  | comma
deriving DecidableEq, Repr

/-- The value of a digit in base 16. -/
def digitValue (c : Char) : Option Nat :=
  let n := c.toNat
  if 48 ≤ n ∧ n ≤ 57 then some (n - 48)
  else if 97 ≤ n ∧ n ≤ 102 then some (n - 87)
  else if 65 ≤ n ∧ n ≤ 70 then some (n - 55)
  else none

/-- Digits in a base, most significant first. -/
def readDigits (base : Nat) : List Char → Nat → Option Nat
  | [], acc => some acc
  | c :: cs, acc =>
    match digitValue c with
    | some d => if d < base then readDigits base cs (acc * base + d) else none
    | none => none

/-- A decimal number or a hex number `0x…` (R87). -/
def readNumber : List Char → Option Nat
  | '0' :: 'x' :: d :: ds => readDigits 16 (d :: ds) 0
  | '0' :: 'X' :: d :: ds => readDigits 16 (d :: ds) 0
  | [] => none
  | ds => readDigits 10 ds 0

/-- A letter in upper case: mnemonics are case-insensitive (R87). -/
def upperChar (c : Char) : Char := if 97 ≤ c.toNat ∧ c.toNat ≤ 122 then Char.ofNat (c.toNat - 32) else c

/-- A finished run of letters and digits: a number where it starts with a digit, else a name. -/
def finishWord (cs : List Char) : Option AsmToken :=
  match cs with
  | [] => none
  | c :: _ =>
    if 48 ≤ c.toNat ∧ c.toNat ≤ 57 then (readNumber cs).map .number else some (.name (cs.map upperChar))

/-- May the character stand in a name or a number? -/
def wordChar (c : Char) : Bool :=
  let n := c.toNat
  (48 ≤ n && n ≤ 57) || (65 ≤ n && n ≤ 90) || (97 ≤ n && n ≤ 122) || n == 95 || n == 46

/-- Where the reader of one line stands. -/
inductive LexMode where
  /-- between tokens -/
  | gap
  /-- inside a name or number, its characters so far in reverse -/
  | inWord (rev : List Char)
  /-- inside a string, its characters so far in reverse -/
  | inString (rev : List Char)
  /-- after the opening quote of a character literal -/
  | inChar
  /-- after the character of a character literal -/
  | endChar (c : Char)
deriving DecidableEq, Repr

/-- The tokens of one line; `;` starts a comment (R87). Code 34 is the string quote, 39 the character quote, 59 the
semicolon, 44 the comma. `none` is an assembly error. DESIGN CHOICE, log entry 13: a string has no escape, so the next
double quote ends it and no string holds one; a character literal is any one character between two single quotes. -/
def lexLine : List Char → LexMode → Option (List AsmToken)
  | [], .gap => some []
  | [], .inWord rev => (finishWord rev.reverse).map fun t => [t]
  | [], .inString _ => none
  | [], .inChar => none
  | [], .endChar _ => none
  | c :: cs, .inString rev =>
    if c.toNat = 34 then (lexLine cs .gap).map (.string rev.reverse :: ·) else lexLine cs (.inString (c :: rev))
  | c :: cs, .inChar => lexLine cs (.endChar c)
  | c :: cs, .endChar v =>
    if c.toNat = 39 ∧ v.toNat < 128 then (lexLine cs .gap).map (.number v.toNat :: ·) else none
  | c :: cs, .gap =>
    if c.toNat = 59 then some []
    else if c.toNat = 32 ∨ c.toNat = 9 then lexLine cs .gap
    else if c.toNat = 44 then (lexLine cs .gap).map (.comma :: ·)
    else if c.toNat = 34 then lexLine cs (.inString [])
    else if c.toNat = 39 then lexLine cs .inChar
    else if wordChar c then lexLine cs (.inWord [c])
    else none
  | c :: cs, .inWord rev =>
    if wordChar c then lexLine cs (.inWord (c :: rev))
    else match finishWord rev.reverse with
      | none => none
      | some t =>
        if c.toNat = 59 then some [t]
        else if c.toNat = 32 ∨ c.toNat = 9 then (lexLine cs .gap).map (t :: ·)
        else if c.toNat = 44 then (lexLine cs .gap).map (t :: .comma :: ·)
        else none

/-- `b0, b1, …`: numbers with commas between them; no number at all is the empty list (R88, n = 0). -/
def numberList : List AsmToken → Option (List Nat)
  | [] => some []
  | [.number n] => some [n]
  | .number n :: .comma :: .number k :: rest => (numberList (.number k :: rest)).map (n :: ·)
  | _ => none

/-- The line a list of tokens stands for (R87, R88). DESIGN CHOICE, log entry 13: R87 gives the literal forms (decimal,
hex, character) for `imm8` only, and the same forms are taken here for `imm16` of `.word` and for the count of
ABSORB_FILL. -/
def parseTokens : List AsmToken → Option AsmLine
  | .name cs :: args =>
    if cs = ['N', 'O', 'P'] then (if args = [] then some .nop else none)
    else if cs = ['I', 'N', 'I', 'T'] then (if args = [] then some .init else none)
    else if cs = ['F', 'I', 'N', 'A', 'L', 'I', 'Z', 'E'] then (if args = [] then some .finalize else none)
    else if cs = ['R', 'E', 'S', 'E', 'T'] then (if args = [] then some .reset else none)
    else if cs = ['W', 'A', 'I', 'T', '_', 'D', 'I', 'G', 'E', 'S', 'T'] then
      (if args = [] then some .waitDigest else none)
    else if cs = ['A', 'B', 'S', 'O', 'R', 'B'] then
      match args with
      | [.number v] => some (.absorb v)
      | _ => none
    else if cs = ['.', 'W', 'O', 'R', 'D'] then
      match args with
      | [.number v] => some (.word v)
      | _ => none
    else if cs = ['A', 'B', 'S', 'O', 'R', 'B', '_', 'B', 'Y', 'T', 'E', 'S'] then (numberList args).map .absorbBytes
    else if cs = ['A', 'B', 'S', 'O', 'R', 'B', '_', 'S', 'T', 'R'] then
      match args with
      | [.string text] => some (.absorbStr text)
      | _ => none
    else if cs = ['A', 'B', 'S', 'O', 'R', 'B', '_', 'F', 'I', 'L', 'L'] then
      match args with
      | [.number v, .comma, .number n] => some (.absorbFill v n)
      | _ => none
    else if cs = ['H', 'A', 'S', 'H'] then (numberList args).map .hash
    else none
  | _ => none

/-- One line of text: no line at all where it holds only blanks and a comment. -/
def parseLine (cs : List Char) : Option (List AsmLine) :=
  match lexLine cs .gap with
  | none => none
  | some [] => some []
  | some toks => (parseTokens toks).map fun l => [l]

/-- The words of a program text, one command on each line (R87); `none` is an assembly error. -/
def assembleText (ls : List (List Char)) : Option (List CmdWord) :=
  match ls.mapM parseLine with
  | none => none
  | some p => assembleLines p.flatten

end Sys2Proof.Machine
end

