-- ==== Sys2Proof/Machine/Reference.lean ====
section
/-! DEFINITION. The spec's other forms of what the core computes, for statements to compare the machine with: the closed
forms of ρ/π (spec/40_permutation.md R103, R109), the LFSR of the round constants (R104), commands as a sequential
composition (spec/20_memory.md R70) and the digest of a message in closed form (spec/41_sponge.md R148). -/

namespace Sys2Proof.Machine

/-! ### The permutation's other forms -/

/-- ρ/π by destination (R103, R109). -/
def rhopiByTable (A : Lanes) : Lanes :=
  Vector.ofFn fun k => if k = 0 then A[0] else rotl64 A[rhopiTable[k].1] rhopiTable[k].2

/-- ρ/π in FIPS 202 coordinates (R103): destination (x, y) takes the rotated source ((x + 3y) % 5, x). -/
def rhopiByCoordinates (A : Lanes) : Lanes :=
  Vector.ofFn fun k =>
    rotl64 A[(k.val % 5 + 3 * (k.val / 5)) % 5 + 5 * (k.val % 5)]
      rhoOffsets[(k.val % 5 + 3 * (k.val / 5)) % 5 + 5 * (k.val % 5)]

/-- Multiplication by x modulo x^8 + x^6 + x^5 + x^4 + 1 over GF(2) (R104). -/
def lfsrStep (v : BitVec 8) : BitVec 8 := if v.getLsbD 7 then (v <<< 1) ^^^ 0x71#8 else v <<< 1

/-- The LFSR after `t` steps from 1. -/
def lfsrRun : Nat → BitVec 8
  | 0 => 1#8
  | t + 1 => lfsrStep (lfsrRun t)

/-- `rc(t)` (R104): the constant coefficient of x^(t % 255); `rc(t) = 1` when `t % 255 = 0`. Log entry 11. -/
def lfsrBit (t : Nat) : Bool := (lfsrRun (t % 255)).getLsbD 0

/-- RC[r] as the LFSR gives it (R104): bit `2^j − 1` is `rc(j + 7r)` for j in 0..6, every other bit is 0. -/
def lfsrConstant (r : Nat) : Lane :=
  (List.range 7).foldl (fun v j => if lfsrBit (j + 7 * r) then v ||| (1#64 <<< (2 ^ j - 1)) else v) 0#64

/-! ### Edges in a row, and commands as a sequential composition -/

/-- `n` clock edges, under what the host drives. -/
def runEdges : Nat → State → Host.Outcome State Fault Refusal
  | 0, s => .next s
  | n + 1, s =>
    match step s with
    | .next t => runEdges n t
    | .fault r => .fault r
    | .refused r => .refused r

/-- One command word carried out whole: its accept edge, and the permutation it may start (R70). -/
def State.runWord (s : State) (w : CmdWord) : Host.Outcome State Fault Refusal :=
  match acceptWord w s with
  | .next t => .next t.settle
  | .fault r => .fault r
  | .refused r => .refused r

/-- Command words carried out one after the other, each on what the one before it left (R70). -/
def State.runWords (s : State) : List CmdWord → Host.Outcome State Fault Refusal
  | [] => .next s
  | w :: ws =>
    match s.runWord w with
    | .next t => t.runWords ws
    | .fault r => .fault r
    | .refused r => .refused r

/-- The words the core accepts in its next `n` edges, under what its host drives (R31). -/
def acceptedWords : Nat → State → List CmdWord
  | 0, _ => []
  | n + 1, s =>
    let later := match step s with
      | .next t => acceptedWords n t
      | .fault _ => []
      | .refused _ => []
    if accepts s.port s then s.port.cmdWord :: later else later

/-! ### The digest in closed form -/

/-- `L`, the padded length of an n-byte message: the next multiple of 136 above n (R148). -/
def paddedLength (n : Nat) : Nat := n - n % 136 + 136

/-- `P`, the padded message (R148): zeros up to `L`, 0x01 XORed at n, 0x80 XORed at L − 1. -/
def padMessage (m : List Byte) : List Byte :=
  ((m ++ List.replicate (paddedLength m.length - m.length) 0#8).modify m.length (· ^^^ Config.domainByte)).modify
    (paddedLength m.length - 1) (· ^^^ Config.endMarker)

/-- `S[i] <- S[i] ^ P[136j + i]` for i in 0..135 (R148). -/
def absorbBlock (P : List Byte) (S : Lanes) (j : Nat) : Lanes :=
  (List.finRange 136).foldl (fun T i => xorByte T (rateAddr i) (P.getD (136 * j + i.val) 0#8)) S

/-- The state after every block of the padded message is absorbed and permuted (R148). -/
def spongeState (m : List Byte) : Lanes :=
  (List.range (paddedLength m.length / 136)).foldl (fun S j => keccakF (absorbBlock (padMessage m) S j)) zeroLanes

/-- Keccak-256 of a message, byte 0 lowest (R148, R35). -/
def keccak256 (m : List Byte) : Digest := digestWindow (spongeState m)

end Sys2Proof.Machine
end

