-- ==== Sys2Proof/Machine/HostAgent.lean ====
section
/-! DEFINITION. A host that follows the handshake: it presents its next word in every cycle and holds it until it is
accepted (spec/70_reset_and_hazards.md R211, R216, R217). -/

namespace Sys2Proof.Machine

/-- What such a host drives in a cycle: its next word, or nothing once every word is accepted. -/
def hostPort : List CmdWord → PortIn
  | [] => .idle
  | w :: _ => .present w

/-- The words left after an edge: the first one is gone once it is accepted (R31, R211). -/
def remainingWords (ws : List CmdWord) (s : State) : List CmdWord :=
  if accepts (hostPort ws) s then ws.tail else ws

/-- What such a host drives in the first `n` cycles from `s`, with `ws` to issue. -/
def eagerDrive : Nat → List CmdWord → State → List PortIn
  | 0, _, _ => []
  | n + 1, ws, s =>
    hostPort ws :: match edge (hostPort ws) s with
      | .next t => eagerDrive n (remainingWords ws s) t
      | .fault _ => []
      | .refused _ => []

/-- The core with such a host attached for `n` cycles. -/
def State.withEagerHost (s : State) (n : Nat) (ws : List CmdWord) : State := { s with drive := eagerDrive n ws s }

/-- The edge after which `digest_valid` becomes 1 when an n-byte message is hashed with an INIT at edge 1 (R216). -/
def digestEdge (n : Nat) : Nat := n + 26 + 24 * (n / 136)

end Sys2Proof.Machine
end

