-- ==== Sys2Proof/Safety.lean ====
section
/-! DEFINITION. What counts as a legal state and as a run of a program: the invariants of spec/10_state.md R39, the end
of a run and its observation (spec/70_reset_and_hazards.md R218), and the premises a claim names (R219). -/

namespace Sys2Proof.Machine

/-- The invariants of R39 that the types do not already carry: (b) an idle PE has round 0, (d) FINALIZING is busy,
(e) FINALIZED is idle. (a), the first half of (b) and (c) are the types of `cursor`, `round` and `phase`; (f) follows
from (e). -/
structure State.Inv (s : State) : Prop where
  idleRound : s.busy = false → s.round = 0
  finalizingBusy : s.phase = .finalizing → s.busy = true
  finalizedIdle : s.phase = .finalized → s.busy = false

/-- The word `w` is accepted at the edge that ends the present cycle (R31). -/
def State.Accepts (s : State) (w : CmdWord) : Prop := accepts s.port s = true ∧ s.port.cmdWord = w

/-- No reset is driven in the next `n` cycles. -/
def State.NoResetFor (s : State) (n : Nat) : Prop := ∀ p ∈ s.drive.take n, p.rst = false

/-- Two states hold the same registers, whatever their hosts drive (R20). -/
def State.SameRegs (s t : State) : Prop := { s with drive := [] } = { t with drive := [] }

/-- The registers are those a reset edge leaves (R42), whatever the host drives. -/
def State.Launched (s : State) : Prop := s = { State.reset with drive := s.drive }

/-- The run stayed within the source's contract (R219, I1): no misuse and no illegal word was recorded. -/
def State.WithinContract (s : State) : Prop := s.errSeq = false ∧ s.errIll = false

/-- What a run of a program gives (R218). -/
structure Observation where
  /-- the final `status_o` -/
  status : StatusWord
  /-- `digest_o`, where `digest_valid = 1` -/
  digest : Option Digest
deriving DecidableEq, Repr

/-- The observation of a run that ends in `s` (R218). -/
def observe (s : State) : Observation :=
  { status := statusO s, digest := if digestValid s then some (digestO s) else none }

/-- Has a run of program `prog` ended, with the words `left` not yet accepted (R218)? -/
def runEnded (prog left : List CmdWord) (s : State) : Bool :=
  left.isEmpty && !s.busy && (prog.getLast? != some finalizeWord || digestValid s)

end Sys2Proof.Machine
end

