-- ==== Sys2Proof/Certificates/Slice0/Obligations.lean ====
section
/-! DEFINITION. The statements about the Keccak-256 core, each from the numbered rules of spec/. They are stated here and
proved elsewhere. -/

open Sys2Proof Sys2Proof.Machine

/-! ### Command words -/

/-- R82, R83: a word decodes to a command exactly when it is that command's word; no operand bit is dropped and no
second word means the same command. -/
def Obligations.DecodeEncodeAgree : Prop := ∀ (w : CmdWord) (i : Instr), decode w = .ok i ↔ encode i = w

/-- R83, line by line; "Decode reads no state" is the decoder's type. -/
def Obligations.DecodeFollowsTheCascade : Prop :=
  ∀ w : CmdWord,
    (w = 0x0000#16 → decode w = .ok .nop) ∧ (w = 0x1000#16 → decode w = .ok .init) ∧
    (w.extractLsb' 8 8 = 0x20#8 → decode w = .ok (.absorb (w.extractLsb' 0 8))) ∧
    (w = 0x3000#16 → decode w = .ok .finalize) ∧
    (w ≠ 0x0000#16 ∧ w ≠ 0x1000#16 ∧ w.extractLsb' 8 8 ≠ 0x20#8 ∧ w ≠ 0x3000#16 →
      ∃ e, decode w = .error e ∧ e.word = w)

/-- R84's three classes, by the fields of R80, and no other illegal word. -/
def Obligations.IllegalWordClasses : Prop :=
  ∀ w : CmdWord,
    (decode w = .error (.badOp w) ↔ 4#4 ≤ w.extractLsb' 12 4) ∧
    (decode w = .error (.badRsv w) ↔ w.extractLsb' 12 4 < 4#4 ∧ w.extractLsb' 8 4 ≠ 0#4) ∧
    (decode w = .error (.badData w) ↔
      w.extractLsb' 12 4 ∈ [0#4, 1#4, 3#4] ∧ w.extractLsb' 8 4 = 0#4 ∧ w.extractLsb' 0 8 ≠ 0#8) ∧
    (CmdWord.legal w = true ↔ ∃ i, decode w = .ok i)

/-- R82, R84: 259 legal words and 65277 illegal ones. -/
def Obligations.LegalWordCount : Prop :=
  Set.ncard {w : CmdWord | ∃ i, decode w = .ok i} = 259 ∧ Set.ncard {w : CmdWord | ∃ e, decode w = .error e} = 65277

/-- spec/opcode_table.json: a legal word lies in its command's row and in no other; an illegal word lies in none. -/
def Obligations.OpcodeRowsPartition : Prop :=
  (∀ w i, decode w = .ok i → ∀ r ∈ opcodeTable, (r.holds w = true ↔ r = opcodeRow i)) ∧
  (∀ w e, decode w = .error e → ∀ r ∈ opcodeTable, r.holds w = false)

/-- R89's encoding examples (derived there from R80 to R83): the text of each, the word it assembles to, and what that word decodes to. -/
def Obligations.EncodingExamples : Prop :=
  assembleText ["ABSORB 'a'".toList] = some [0x2061#16] ∧ decode 0x2061#16 = .ok (.absorb 0x61#8) ∧
  assembleText ["ABSORB 0xFF".toList] = some [0x20FF#16] ∧ decode 0x20FF#16 = .ok (.absorb 0xFF#8) ∧
  assembleText ["ABSORB 0".toList] = some [0x2000#16] ∧ decode 0x2000#16 = .ok (.absorb 0x00#8) ∧
  assembleText ["INIT".toList] = some [0x1000#16] ∧ decode 0x1000#16 = .ok .init ∧
  assembleText ["FINALIZE".toList] = some [0x3000#16] ∧ decode 0x3000#16 = .ok .finalize ∧
  assembleText [".word 0x3001".toList] = some [0x3001#16] ∧ decode 0x3001#16 = .error (.badData 0x3001#16) ∧
  assembleText [".word 0x2100".toList] = some [0x2100#16] ∧ decode 0x2100#16 = .error (.badRsv 0x2100#16) ∧
  assembleText [".word 0x4000".toList] = some [0x4000#16] ∧ decode 0x4000#16 = .error (.badOp 0x4000#16) ∧
  assembleText [".word 0xFFFF".toList] = some [0xFFFF#16] ∧ decode 0xFFFF#16 = .error (.badOp 0xFFFF#16) ∧
  assembleText ["HASH 'a','b','c'".toList] = some [0x1000#16, 0x2061#16, 0x2062#16, 0x2063#16, 0x3000#16]

/-- R87, R88: a line with operands in range stands for the words of its commands, and an ABSORB operand above 255 is an
assembly error. -/
def Obligations.AssemblyExpansions : Prop :=
  (∀ v, v < 256 → assembleLines [.absorb v] = some [encode (.absorb (BitVec.ofNat 8 v))]) ∧
  (∀ v, 256 ≤ v → assembleLines [.absorb v] = none) ∧
  (∀ m : List Byte, assembleLines [.hash (m.map BitVec.toNat)] = some (hashWords m)) ∧
  (∀ v n, v < 256 → assembleLines [.absorbFill v n] = some (absorbWords (List.replicate n (BitVec.ofNat 8 v)))) ∧
  assembleLines [.reset] = some [encode .init] ∧ assembleLines [.waitDigest] = some []

/-- R147, R149: the source's operations as command sequences; a split input gives the same words as the whole. -/
def Obligations.SourceOperationsAsWords : Prop :=
  SourceOp.new.words = [0x1000#16] ∧ SourceOp.reset.words = [0x1000#16] ∧ SourceOp.finalize.words = [0x3000#16] ∧
  (∀ m : List Byte, (SourceOp.absorb m).words = m.map fun b => 0x20#8 ++ b) ∧
  (∀ m n : List Byte, (SourceOp.absorb (m ++ n)).words = (SourceOp.absorb m).words ++ (SourceOp.absorb n).words) ∧
  (∀ m : List Byte, (SourceOp.hash m).words =
    SourceOp.new.words ++ (SourceOp.absorb m).words ++ SourceOp.finalize.words)

/-! ### The state's two views -/

/-- R61: a lane is the little-endian value of its eight bytes, each byte is eight bits of its lane, and a state bit is a
bit of its byte and of its lane. -/
def Obligations.LaneIsItsEightBytes : Prop :=
  ∀ A : Lanes,
    (∀ k : Fin 25, A[k] = memRead A (8 * k.val) 8 (by omega)) ∧
    (∀ (k : Fin 25) (j : Fin 8), (A[k]).extractLsb' (8 * j.val) 8 = getByte A ⟨8 * k.val + j.val, by omega⟩) ∧
    (∀ n : Fin 1600, stateBit A n = (getByte A ⟨n.val / 8, by omega⟩).getLsbD (n.val % 8)) ∧
    (∀ n : Fin 1600, stateBit A n = (A[n.val / 64]'(by omega)).getLsbD (n.val % 64))

/-- R62: a byte write changes exactly its eight bits of its lane and nothing else. -/
def Obligations.ByteWriteChangesOnlyItsBits : Prop :=
  ∀ (A : Lanes) (i : Fin 200) (b : Byte),
    getByte (setByte A i b) i = b ∧
    (∀ a : Fin 200, a ≠ i → getByte (setByte A i b) a = getByte A a) ∧
    (∀ n : Fin 1600, n.val / 8 ≠ i.val → stateBit (setByte A i b) n = stateBit A n)

/-- R12: `MemWrite` writes its n bytes and no other, and `MemRead` reads them back. -/
def Obligations.MemWriteThenMemRead : Prop :=
  ∀ (A : Lanes) (addr n : Nat) (h : addr + n ≤ 200) (v : BitVec (8 * n)),
    memRead (memWrite A addr n h v) addr n h = v ∧
    ∀ a : Fin 200, (a.val < addr ∨ addr + n ≤ a.val) → getByte (memWrite A addr n h v) a = getByte A a

/-! ### The permutation -/

/-- R106: the rotation formula and its corner cases; every amount used is in 1..63. -/
def Obligations.RotationFormula : Prop :=
  (∀ (x : Lane) (n : Nat), 1 ≤ n → n ≤ 63 → rotl64 x n = (x <<< n) ||| (x >>> (64 - n))) ∧
  (∀ n ∈ rotAmounts, 1 ≤ n ∧ n ≤ 63) ∧
  rotl64 0x8000000000000000#64 1 = 0x0000000000000001#64 ∧
  (∀ n, 1 ≤ n → n ≤ 63 → rotl64 (BitVec.allOnes 64) n = BitVec.allOnes 64)

/-- R106 by bits: bit j of the rotated lane is bit (j − n) mod 64 of the lane. -/
def Obligations.RotationMovesBits : Prop :=
  ∀ (x : Lane) (n j : Nat), 1 ≤ n → n ≤ 63 → j < 64 → (rotl64 x n).getLsbD j = x.getLsbD ((j + (64 - n)) % 64)

/-- R107: θ by lanes, with parities of the input lanes only, and its corner cases. -/
def Obligations.ThetaByLanes : Prop :=
  (∀ (A : Lanes) (C : Fin 5 → Lane),
    (∀ x : Fin 5, C x = A[x.val] ^^^ A[x.val + 5] ^^^ A[x.val + 10] ^^^ A[x.val + 15] ^^^ A[x.val + 20]) →
    ∀ k : Fin 25, (theta A)[k] =
      A[k] ^^^ (C ⟨(k.val % 5 + 4) % 5, by omega⟩ ^^^ rotl64 (C ⟨(k.val % 5 + 1) % 5, by omega⟩) 1)) ∧
  theta zeroLanes = zeroLanes ∧
  theta (Vector.replicate 25 (BitVec.allOnes 64)) = Vector.replicate 25 (BitVec.allOnes 64) ∧
  theta (zeroLanes.set 0 0x8000000000000000#64) =
    Vector.ofFn fun k : Fin 25 =>
      if k = 0 ∨ k.val % 5 = 1 then 0x8000000000000000#64 else if k.val % 5 = 4 then 1#64 else 0#64

/-- R109 (derived there from R102, R103, R108): the one-pass ρ/π is the destination table of R103. -/
def Obligations.RhoPiByDestination : Prop :=
  ∀ A : Lanes, (rhopi A)[0] = A[0] ∧
    ∀ k : Fin 25, k ≠ 0 → (rhopi A)[k] = rotl64 A[rhopiTable[k].1] rhopiTable[k].2

/-- R103: the one-pass ρ/π in FIPS 202 coordinates. -/
def Obligations.RhoPiByCoordinates : Prop := ∀ A : Lanes, rhopi A = rhopiByCoordinates A

/-- R110: χ from the row's old values, its fixed points and its worked example. -/
def Obligations.ChiFromOldRow : Prop :=
  (∀ (A : Lanes) (x y : Fin 5), (chi A)[x.val + 5 * y.val] =
    A[x.val + 5 * y.val] ^^^ (~~~A[(x.val + 1) % 5 + 5 * y.val] &&& A[(x.val + 2) % 5 + 5 * y.val])) ∧
  chi zeroLanes = zeroLanes ∧
  chi (Vector.replicate 25 (BitVec.allOnes 64)) = Vector.replicate 25 (BitVec.allOnes 64) ∧
  chi (zeroLanes.set 1 1#64) = (zeroLanes.set 1 1#64).set 4 1#64

/-- R111: ι changes lane 0 only, by the round's constant. -/
def Obligations.IotaTouchesLaneZero : Prop :=
  (∀ (A : Lanes) (r : Fin 24), (iota A r)[0] = A[0] ^^^ roundConstants[r]) ∧
  (∀ (A : Lanes) (r : Fin 24) (k : Fin 25), k ≠ 0 → (iota A r)[k] = A[k]) ∧
  (iota zeroLanes 0)[0] = 1#64 ∧
  iota (Vector.replicate 25 (BitVec.allOnes 64)) 0 =
    (Vector.replicate 25 (BitVec.allOnes 64)).set 0 0xFFFFFFFFFFFFFFFE#64

/-- R112: the order of a round's steps and its two worked examples. -/
def Obligations.RoundOrder : Prop :=
  (∀ (A : Lanes) (r : Fin 24), keccakRound A r = iota (chi (rhopi (theta A))) r) ∧
  keccakRound zeroLanes 0 = zeroLanes.set 0 0x0000000000000001#64 ∧
  keccakRound zeroLanes 5 = zeroLanes.set 0 0x0000000080000001#64

/-- R113: Keccak-f[1600] is the 24 rounds in index order, each with its own constant. -/
def Obligations.KeccakFIsTwentyFourRounds : Prop :=
  ∀ (A : Lanes) (B : Nat → Lanes), B 0 = A → (∀ r : Fin 24, B (r.val + 1) = keccakRound (B r.val) r) →
    keccakF A = B 24

/-- R113's worked example, and the source's four known-answer vectors (V-K1 to V-K4 with their 64th digit, C2), written
as lanes `A[3] ++ A[2] ++ A[1] ++ A[0]` (R35). -/
def Obligations.KnownAnswers : Prop :=
  (keccakF zeroLanes)[0] = 0xF1258F7940E1DDE7#64 ∧ (keccakF zeroLanes)[24] = 0xEAF1FF7B5CECA249#64 ∧
  keccak256 [] =
    0x70A4855D04D8FA7B#64 ++ 0x3B2782CA53B600E5#64 ++ 0xC003C7DCB27D7E92#64 ++ 0x3C23F7860146D2C5#64 ∧
  keccak256 [0x61#8, 0x62#8, 0x63#8] =
    0x456C2DA18FF544EC#64 ++ 0x36A0643AE3E6D1C0#64 ++ 0x67D6C826A87BD4C7#64 ++ 0x4FA945EA7A65034E#64 ∧
  keccak256 (List.replicate 136 0x00#8) =
    0xF925DB1C23CB153C#64 ++ 0xBE653C537DE89C7A#64 ++ 0x4639E3536290FEE4#64 ++ 0x6EA0FAC5A712593A#64 ∧
  keccak256 (List.replicate 200 0xA3#8) =
    0x4A7D60CEC20A532D#64 ++ 0x1260A72D6FCBE188#64 ++ 0x255AF45644DC53C9#64 ++ 0xF27787046B66573A#64

/-- R155, for the all-zero inputs of V-S5 to V-S7: 135, 136 and 137 bytes give three different digests. -/
def Obligations.RateEdgeDigestsDiffer : Prop :=
  keccak256 (List.replicate 135 0x00#8) ≠ keccak256 (List.replicate 136 0x00#8) ∧
  keccak256 (List.replicate 135 0x00#8) ≠ keccak256 (List.replicate 137 0x00#8) ∧
  keccak256 (List.replicate 136 0x00#8) ≠ keccak256 (List.replicate 137 0x00#8)

/-- R104: the LFSR reproduces the round constants. How the LFSR is started and read is the model's reading of the rule
(log entry 11). -/
def Obligations.RoundConstantsFromLfsr : Prop := ∀ r : Fin 24, roundConstants[r] = lfsrConstant r.val

/-- R101, R102: the rotation amounts are triangular numbers; the lane sequence visits 1..24 once and ends at 1. -/
def Obligations.RhoPiTablesShape : Prop :=
  (∀ i : Fin 24, rotAmounts[i.val]? = some ((i.val + 1) * (i.val + 2) / 2 % 64)) ∧
  piLanes.length = 24 ∧ piLanes.Nodup ∧ (0 : Fin 25) ∉ piLanes ∧ piLanes.getLast? = some 1

/-! ### One clock edge -/

/-- R140, R184: the four alternatives of an edge, in their order. -/
def Obligations.EdgePrecedence : Prop :=
  ∀ s : State,
    (s.port.rst = true → step s = .next s.nextCycle.resetRegs) ∧
    (s.port.rst = false → s.busy = true → step s = .next s.nextCycle.peRound) ∧
    (s.port.rst = false → s.busy = false → s.port.cmdValid = true →
      (∀ i, decode s.port.cmdWord = .ok i → step s = exec i s.nextCycle) ∧
      (∀ e, decode s.port.cmdWord = .error e → step s = .next { s.nextCycle with errIll := true })) ∧
    (s.port.rst = false → s.busy = false → s.port.cmdValid = false → step s = .next s.nextCycle)

/-- R31, R83, R140: an accepted word that decodes to a command runs exactly that command; the step adds only the host's
move to its next cycle. -/
def Obligations.StepRunsDecodedCommand : Prop :=
  ∀ (s : State) (i : Instr), i.wellFormed = true → s.Accepts (encode i) →
    step s = exec i { s with drive := s.drive.tail }

/-- The model's port convention (log entries 2 and 15): a table word placed by `withFetchWord` is the one the next step
runs. -/
def Obligations.FetchWordRunsNext : Prop :=
  ∀ (s : State) (nbits w : Nat) (i : Instr), decodeTableWord nbits w = some i →
    step (s.withFetchWord nbits w) = exec i { s.settle with drive := s.drive.tail }

/-- R32, R31: readiness, and which words are accepted. -/
def Obligations.ReadyAndAccepted : Prop :=
  ∀ (s : State) (p : PortIn),
    (cmdReady p.rst s = true ↔ p.rst = false ∧ s.busy = false) ∧
    (accepts p s = true ↔ p.rst = false ∧ p.cmdValid = true ∧ cmdReady p.rst s = true)

/-- R31, R211: while the PE runs, what the host presents on the command port changes nothing. -/
def Obligations.BusyIgnoresCommandPort : Prop :=
  ∀ (s : State) (p q : PortIn) (ds : List PortIn), s.busy = true → p.rst = q.rst →
    step { s with drive := p :: ds } = step { s with drive := q :: ds } ∧
    acceptedWords 1 { s with drive := p :: ds } = []

/-- R145: an accepted illegal word sets ERR_ILL and changes nothing else, in every phase. -/
def Obligations.IllegalWordSetsErrIllOnly : Prop :=
  ∀ (s : State) (w : CmdWord), s.Accepts w → CmdWord.legal w = false →
    ∃ t, step s = .next t ∧ t.errIll = true ∧ t.lanes = s.lanes ∧ t.cursor = s.cursor ∧ t.phase = s.phase ∧
      t.busy = s.busy ∧ t.round = s.round ∧ t.errSeq = s.errSeq ∧ t.drive = s.drive.tail ∧ digestO t = digestO s ∧
      (statusO s = 0x0000#16 → statusO t = 0x0010#16)

/-! ### The commands -/

/-- R141: NOP completes in every state and changes nothing; 0x0000 is its only word, and every other word with OP = 0 is
illegal. -/
def Obligations.NopChangesNothing : Prop :=
  (∀ s : State, exec .nop s = .next s) ∧ encode .nop = 0x0000#16 ∧ (∀ w : CmdWord, decode w = .ok .nop ↔ w = 0x0000#16) ∧
  ∀ w : CmdWord, w.extractLsb' 12 4 = 0#4 → w ≠ 0x0000#16 → ∃ e, decode w = .error e

/-- R142, R68: INIT completes in every state, writes every register but `busy`, and a second INIT changes nothing
more. -/
def Obligations.InitClearsRegisters : Prop :=
  ∀ s : State, ∃ t, exec .init s = .next t ∧ (∀ a : Fin 200, getByte t.lanes a = 0#8) ∧ t.lanes = zeroLanes ∧
    t.cursor = 0 ∧ t.phase = .ready ∧ t.round = 0 ∧ t.errSeq = false ∧ t.errIll = false ∧
    t.busy = s.busy ∧ t.drive = s.drive ∧ digestValid t = false ∧ digestO t = 0#256 ∧ exec .init t = .next t ∧
    (s.busy = false → statusO t = 0x0000#16) ∧ encode .init = 0x1000#16 ∧ (s.busy = true → ¬ s.Accepts (encode .init))

/-- R143, the offset below 135: the byte goes in at the cursor and the cursor advances; nothing else changes. -/
def Obligations.AbsorbWithinBlock : Prop :=
  ∀ (b : Byte) (s : State), s.phase ≠ .finalized → s.cursor.val < 135 →
    ∃ t, exec (.absorb b) s = .next t ∧
      (∀ a : Fin 200, getByte t.lanes a =
        if a = cursorAddr s then getByte s.lanes a ^^^ b else getByte s.lanes a) ∧
      t.cursor.val = s.cursor.val + 1 ∧ t.phase = s.phase ∧ t.busy = s.busy ∧ t.round = s.round ∧
      t.errSeq = s.errSeq ∧ t.errIll = s.errIll ∧ t.drive = s.drive

/-- R143, R115, R154, the offset 135: the byte goes in at 135, the cursor is 0 again and the PE starts; nothing else
changes. -/
def Obligations.AbsorbFillsBlock : Prop :=
  ∀ (b : Byte) (s : State), s.phase ≠ .finalized → s.cursor.val = 135 →
    ∃ t, exec (.absorb b) s = .next t ∧
      (∀ a : Fin 200, getByte t.lanes a = if a.val = 135 then getByte s.lanes a ^^^ b else getByte s.lanes a) ∧
      t.cursor = 0 ∧ t.busy = true ∧ t.round = 0 ∧ t.phase = s.phase ∧
      t.errSeq = s.errSeq ∧ t.errIll = s.errIll ∧ t.drive = s.drive

/-- R144, C5: FINALIZE XORs 0x01 in at the cursor and 0x80 at 135 (0x81 when they are one byte), enters FINALIZING and
starts the PE; the cursor and everything else is kept. -/
def Obligations.FinalizePadsAndStarts : Prop :=
  ∀ s : State, s.phase ≠ .finalized →
    ∃ t, exec .finalize s = .next t ∧
      (∀ a : Fin 200, getByte t.lanes a =
        getByte s.lanes a ^^^ (if a = cursorAddr s then 0x01#8 else 0#8) ^^^ (if a.val = 135 then 0x80#8 else 0#8)) ∧
      (s.cursor.val = 135 → getByte t.lanes 135 = getByte s.lanes 135 ^^^ 0x81#8) ∧
      t.phase = .finalizing ∧ t.busy = true ∧ t.round = 0 ∧ t.cursor = s.cursor ∧
      t.errSeq = s.errSeq ∧ t.errIll = s.errIll ∧ t.drive = s.drive

/-- R146: ABSORB or FINALIZE in phase FINALIZED sets ERR_SEQ and changes nothing else. -/
def Obligations.MisuseSetsErrSeqOnly : Prop :=
  ∀ s : State, s.phase = .finalized →
    ∃ t, (∀ b, exec (.absorb b) s = .next t) ∧ exec .finalize s = .next t ∧ t.errSeq = true ∧
      t.lanes = s.lanes ∧ t.cursor = s.cursor ∧ t.phase = s.phase ∧ t.busy = s.busy ∧ t.round = s.round ∧
      t.errIll = s.errIll ∧ t.drive = s.drive ∧ digestO t = digestO s ∧
      (statusO s = 0x0024#16 → statusO t = 0x002C#16)

/-- The frame of NOP, ABSORB and FINALIZE (R64, R66, R23, R27, R28): a byte they do not read-modify-write keeps its value,
and so does the capacity; only FINALIZE writes the phase, only ABSORB the cursor, and only misuse a flag. -/
def Obligations.CommandFrame : Prop :=
  ∀ (i : Instr) (s t : State), i ≠ .init → exec i s = .next t →
    (∀ a : Fin 200, a ∉ xorAddrs i s → getByte t.lanes a = getByte s.lanes a) ∧
    (∀ a : Fin 200, regionOf a = .capacity → getByte t.lanes a = getByte s.lanes a) ∧
    t.errIll = s.errIll ∧ t.drive = s.drive ∧ (s.phase ≠ .finalized → t.errSeq = s.errSeq) ∧
    (i ≠ .finalize → t.phase = s.phase) ∧ ((∀ b, i ≠ .absorb b) → t.cursor = s.cursor) ∧
    (s.phase = .finalized → t.lanes = s.lanes ∧ t.cursor = s.cursor ∧ t.phase = s.phase ∧ t.busy = s.busy)

/-! ### The permutation's schedule -/

/-- R114: the PE's round step, the whole effect of an edge with `rst = 0` and `busy = 1`; no command is accepted there. -/
def Obligations.RoundStepAtEachBusyEdge : Prop :=
  ∀ s : State, s.port.rst = false → s.busy = true → accepts s.port s = false ∧
    ∃ t, step s = .next t ∧ t.lanes = keccakRound s.lanes s.round ∧ t.cursor = s.cursor ∧
      t.errSeq = s.errSeq ∧ t.errIll = s.errIll ∧ t.drive = s.drive.tail ∧
      (s.round.val = 23 → t.busy = false ∧ t.round = 0 ∧
        (s.phase = .finalizing → t.phase = .finalized) ∧ (s.phase ≠ .finalizing → t.phase = s.phase)) ∧
      (s.round.val ≠ 23 → t.busy = true ∧ t.round.val = s.round.val + 1 ∧ t.phase = s.phase)

/-- R116 (derived there from R113 to R115): a permutation started at round 0 takes 24 edges; after r of them round r is next and the PE is still busy, and
after the 24th the state is KeccakF of what it was and the next word can be accepted. -/
def Obligations.PermutationTakesTwentyFourEdges : Prop :=
  ∀ s : State, s.busy = true → s.round = 0 → s.NoResetFor 24 →
    (∀ r : Fin 24, ∃ u, runEdges r.val s = .next u ∧ u.busy = true ∧ u.round = r ∧ u.phase = s.phase ∧
      u.cursor = s.cursor ∧ u.lanes = ((List.finRange 24).take r.val).foldl keccakRound s.lanes) ∧
    ∃ t, runEdges 24 s = .next t ∧ t.lanes = keccakF s.lanes ∧ t.busy = false ∧ t.round = 0 ∧
      t.phase = finishPhase s.phase ∧ t.cursor = s.cursor ∧ t.errSeq = s.errSeq ∧ t.errIll = s.errIll ∧
      t.drive = s.drive.drop 24

/-- R144, R210, R215: FINALIZE accepted while the PE is idle gives the digest 24 edges after its accept edge, and no
digest and no partial state is shown before. -/
def Obligations.FinalizeGivesDigest : Prop :=
  ∀ s : State, s.Accepts (encode .finalize) → s.phase = .ready → s.NoResetFor 25 →
    (∀ k, 1 ≤ k → k ≤ 24 → ∃ u, runEdges k s = .next u ∧ u.phase = .finalizing ∧ u.busy = true ∧
      digestValid u = false ∧ digestO u = 0#256) ∧
    ∃ t, runEdges 25 s = .next t ∧ t.lanes = keccakF s.pad.lanes ∧ t.phase = .finalized ∧ t.busy = false ∧
      t.cursor = s.cursor ∧ digestValid t = true ∧ digestO t = digestWindow (keccakF s.pad.lanes)

/-! ### Outputs -/

/-- R33: the status word, field by field, and its value after reset. -/
def Obligations.StatusWordFields : Prop :=
  (∀ s : State, (statusO s).getLsbD 0 = s.busy ∧ (statusO s).extractLsb' 1 2 = phaseCode s.phase ∧
    (statusO s).getLsbD 3 = s.errSeq ∧ (statusO s).getLsbD 4 = s.errIll ∧
    (statusO s).getLsbD 5 = digestValid s ∧ (statusO s).extractLsb' 6 2 = 0#2 ∧
    ((statusO s).extractLsb' 8 8).toNat = s.cursor.val) ∧
  phaseCode .ready = 0#2 ∧ phaseCode .finalizing = 1#2 ∧ phaseCode .finalized = 2#2 ∧
  statusO State.reset = 0x0000#16

/-- R34, R35: the digest port shows the first 32 state bytes in phase FINALIZED, byte j in bits 8j+7:8j, and 0
otherwise. -/
def Obligations.DigestPortBytes : Prop :=
  ∀ s : State,
    (digestValid s = true ↔ s.phase = .finalized) ∧
    (digestValid s = true → digestO s = s.lanes[3] ++ s.lanes[2] ++ s.lanes[1] ++ s.lanes[0] ∧
      ∀ j : Fin 32, (digestO s).extractLsb' (8 * j.val) 8 = getByte s.lanes ⟨j.val, by omega⟩) ∧
    (digestValid s = false → digestO s = 0#256)

/-! ### Reset -/

/-- R42: every register and output after reset, the outputs by R32 to R35 as R42 derives them; INIT gives the same values. -/
def Obligations.ResetValues : Prop :=
  State.reset.lanes = zeroLanes ∧ (∀ a : Fin 200, getByte State.reset.lanes a = 0#8) ∧ State.reset.cursor = 0 ∧
  State.reset.phase = .ready ∧ State.reset.busy = false ∧ State.reset.round = 0 ∧ State.reset.errSeq = false ∧
  State.reset.errIll = false ∧ statusO State.reset = 0x0000#16 ∧ digestValid State.reset = false ∧
  digestO State.reset = 0#256 ∧ cmdReady false State.reset = true ∧ cmdReady true State.reset = false ∧
  ∀ s : State, s.busy = false → exec .init s = .next { State.reset with drive := s.drive }

/-- R200, R201, R202: at an edge with `rst = 1` every register takes its reset value, whatever the core was doing; no
command is accepted there; `cmd_ready` is 0 while `rst` stays 1. -/
def Obligations.ResetEdge : Prop :=
  ∀ s : State, s.port.rst = true →
    ∃ t, step s = .next t ∧ t = { State.reset with drive := s.drive.tail } ∧ t.lanes = zeroLanes ∧ t.cursor = 0 ∧
      t.phase = .ready ∧ t.busy = false ∧ t.round = 0 ∧ t.errSeq = false ∧ t.errIll = false ∧
      statusO t = 0x0000#16 ∧ digestO t = 0#256 ∧ accepts s.port s = false ∧ (outputs s).ready = false

/-- R43, R203: whatever the registers held at power-on, one edge with `rst = 1` leaves the reset state. The power-on
values are free (log entry 3): this holds whatever they are. -/
def Obligations.PowerOnThenReset : Prop :=
  ∀ ds : List PortIn, step (State.powerOn (PortIn.reset :: ds)) = .next { State.reset with drive := ds }

/-! ### Whole-machine rules -/

/-- R39 (derived there from R42): the reset state meets the invariants, whatever its host drives. -/
def Obligations.ResetMeetsInvariants : Prop := ∀ ds : List PortIn, ({ State.reset with drive := ds } : State).Inv

/-- R39 (derived there from R140 to R145): every step preserves the invariants, from every state that meets them. -/
def Obligations.StepPreservesInvariants : Prop := ∀ s t : State, s.Inv → step s = .next t → t.Inv

/-- R186, R27, R28: only INIT and reset clear an error flag. -/
def Obligations.ErrorFlagsClearedOnlyByInitOrReset : Prop :=
  ∀ s t : State, step s = .next t →
    (s.errSeq = true ∧ t.errSeq = false ∨ s.errIll = true ∧ t.errIll = false) →
    s.port.rst = true ∨ s.Accepts (encode .init)

/-- R181, R182: ERR_SEQ becomes 1 exactly at an accepted ABSORB or FINALIZE in phase FINALIZED, and ERR_ILL exactly at an
accepted illegal word. -/
def Obligations.ErrorFlagsSetExactly : Prop :=
  ∀ s t : State, step s = .next t →
    (s.errSeq = false → (t.errSeq = true ↔
      s.phase = .finalized ∧ ((∃ b, s.Accepts (encode (.absorb b))) ∨ s.Accepts (encode .finalize)))) ∧
    (s.errIll = false → (t.errIll = true ↔ ∃ w, s.Accepts w ∧ CmdWord.legal w = false))

/-- R37, R115: BUSY becomes 1 exactly at an accepted ABSORB that fills the block or an accepted FINALIZE, outside phase
FINALIZED, and becomes 0 exactly at the last round edge or at reset. -/
def Obligations.BusyChangesExactly : Prop :=
  ∀ s t : State, step s = .next t →
    (s.busy = false → (t.busy = true ↔ s.phase ≠ .finalized ∧
      ((∃ b, s.Accepts (encode (.absorb b))) ∧ s.cursor.val = 135 ∨ s.Accepts (encode .finalize)))) ∧
    (s.busy = true → (t.busy = false ↔ s.port.rst = true ∨ s.round.val = 23))

/-- R37: DV becomes 1 exactly at the last round edge of the final permutation and becomes 0 exactly at INIT or reset. -/
def Obligations.DigestValidChangesExactly : Prop :=
  ∀ s t : State, step s = .next t →
    (digestValid s = false → (digestValid t = true ↔
      s.port.rst = false ∧ s.busy = true ∧ s.round.val = 23 ∧ s.phase = .finalizing)) ∧
    (digestValid s = true → (digestValid t = false ↔ s.port.rst = true ∨ s.Accepts (encode .init)))

/-- R67 (derived there from R34, R35, R146), R210: once FINALIZED, the digest and the whole state stay as they are until INIT or reset, in every state that
meets the invariants. -/
def Obligations.DigestImmutable : Prop :=
  ∀ s t : State, s.Inv → s.phase = .finalized → s.port.rst = false → ¬ s.Accepts (encode .init) → step s = .next t →
    t.phase = .finalized ∧ t.lanes = s.lanes ∧ t.cursor = s.cursor ∧ digestO t = digestO s

/-- R151 (derived there from R142, R20): what follows an INIT does not depend on what came before it. -/
def Obligations.InitForgetsHistory : Prop :=
  ∀ (s s' : State) (ws : List CmdWord), s.busy = false → s'.busy = false →
    ∃ t t', s.runWords (encode .init :: ws) = .next t ∧ s'.runWords (encode .init :: ws) = .next t' ∧ t.SameRegs t'

/-- R149 (derived there from R140, R141, R143): NOPs among the words change nothing. -/
def Obligations.NopsDropOut : Prop :=
  ∀ (s : State) (ws : List CmdWord), s.busy = false → s.runWords (ws.filter (· ≠ encode .nop)) = s.runWords ws

/-- R70, R116, R149: however the host spreads, holds or withdraws its words over the cycles, without a reset the core ends,
once a running permutation is finished, where the sequential composition of the accepted words ends. -/
def Obligations.EdgesComposeSequentially : Prop :=
  ∀ (n : Nat) (s : State), s.NoResetFor n →
    ∃ t u, runEdges n s = .next t ∧ s.settle.runWords (acceptedWords n s) = .next u ∧
      t.settle = { u with drive := s.drive.drop n }

/-- R148 (derived there from R142 to R144, R113, R116): INIT, one ABSORB a byte, FINALIZE, from any state at an accept edge: the digest is Keccak-256 of the message
and the status shows FINALIZED, DV, no error and the padding position. -/
def Obligations.HashGivesKeccak256 : Prop :=
  ∀ (m : List Byte) (s : State), s.busy = false →
    ∃ t, s.runWords (hashWords m) = .next t ∧ digestValid t = true ∧ digestO t = keccak256 m ∧
      statusO t = BitVec.ofNat 8 (m.length % 136) ++ 0x24#8 ∧ t.drive = s.drive

/-- R216 (derived there from R215), R210: with a word presented in every cycle and INIT at edge 1, `digest_valid` is 0 after every earlier edge and
1 after edge n + 26 + 24·(n/136), when `digest_o` is Keccak-256 of the message. -/
def Obligations.DigestEdgeOfEagerHost : Prop :=
  ∀ (m : List Byte) (s : State), s.busy = false →
    (∀ k, 1 ≤ k → k < digestEdge m.length →
      ∃ u, runEdges k (s.withEagerHost (digestEdge m.length) (hashWords m)) = .next u ∧ digestValid u = false ∧
        digestO u = 0#256) ∧
    ∃ t, runEdges (digestEdge m.length) (s.withEagerHost (digestEdge m.length) (hashWords m)) = .next t ∧
      digestValid t = true ∧ digestO t = keccak256 m
end

