-- ==== Sys2Proof/Laws/Bytes.lean ====
section
/-! SUPPORT. The byte view: what a byte write changes and what it leaves (spec/20_memory.md R61, R62). -/

namespace Sys2Proof.Machine

/-- Bit `j` of a lane after a byte of it is replaced. -/
theorem getLsbD_insertByte (x : Lane) (sh : Nat) (b : Byte) (j : Nat) (hj : j < 64) :
    (insertByte x sh b).getLsbD j = if sh ≤ j ∧ j < sh + 8 then b.getLsbD (j - sh) else x.getLsbD j := by
  have hff : ∀ k, (0xFF#64).getLsbD k = decide (k < 8) := by
    intro k
    by_cases hk : k < 64
    · have : ∀ k : Fin 64, (0xFF#64).getLsbD k.val = decide (k.val < 8) := by decide
      exact this ⟨k, hk⟩
    · rw [BitVec.getLsbD_of_ge _ _ (by omega)]; simp; omega
  simp only [insertByte, BitVec.getLsbD_or, BitVec.getLsbD_and, BitVec.getLsbD_not, BitVec.getLsbD_shiftLeft, hff,
    BitVec.getLsbD_setWidth, hj, decide_true, Bool.true_and]
  by_cases h1 : j < sh
  · have : ¬ (sh ≤ j ∧ j < sh + 8) := by omega
    simp [h1, this]
  · by_cases h2 : j < sh + 8
    · have h3 : sh ≤ j ∧ j < sh + 8 := by omega
      have h4 : j - sh < 8 := by omega
      have h5 : j - sh < 64 := by omega
      simp [h1, h3, h4, h5]
    · have h3 : ¬ (sh ≤ j ∧ j < sh + 8) := by omega
      have h4 : ¬ (j - sh < 8) := by omega
      simp [h1, h3, h4, BitVec.getLsbD_of_ge b (j - sh) (by omega)]

/-- A lane after a byte write (R62). -/
theorem getElem_setByte (A : Lanes) (i : Fin 200) (b : Byte) (k : Fin 25) :
    (setByte A i b)[k] = if k = laneOf i then insertByte A[k] (byteShift i) b else A[k] := by
  unfold setByte
  simp only [Fin.getElem_fin, Vector.getElem_set]
  by_cases h : k = laneOf i
  · subst h; simp
  · have h' : ¬ (laneOf i).val = k.val := fun e => h (Fin.ext e.symm)
    simp [h, h']

/-- Reading the byte that was written. -/
theorem getByte_setByte_self (A : Lanes) (i : Fin 200) (b : Byte) : getByte (setByte A i b) i = b := by
  unfold getByte
  rw [getElem_setByte, if_pos rfl]
  apply BitVec.eq_of_getLsbD_eq
  intro j hj
  have hs : byteShift i + j < 64 := by unfold byteShift; omega
  rw [BitVec.getLsbD_extractLsb', getLsbD_insertByte _ _ _ _ hs]
  have : byteShift i ≤ byteShift i + j ∧ byteShift i + j < byteShift i + 8 := by omega
  simp [this, hj]

/-- Reading another byte. -/
theorem getByte_setByte_of_ne (A : Lanes) (i a : Fin 200) (b : Byte) (h : a ≠ i) :
    getByte (setByte A i b) a = getByte A a := by
  unfold getByte
  rw [getElem_setByte]
  split
  case isFalse => rfl
  case isTrue hl =>
    apply BitVec.eq_of_getLsbD_eq
    intro j hj
    have hne : a.val ≠ i.val := fun e => h (Fin.ext e)
    have hlane : a.val / 8 = i.val / 8 := congrArg Fin.val hl
    have hs : byteShift a + j < 64 := by unfold byteShift; omega
    rw [BitVec.getLsbD_extractLsb', getLsbD_insertByte _ _ _ _ hs, BitVec.getLsbD_extractLsb']
    have : ¬ (byteShift i ≤ byteShift a + j ∧ byteShift a + j < byteShift i + 8) := by
      unfold byteShift; omega
    simp [this]

/-- What one byte XOR leaves in every byte (R66). -/
theorem getByte_xorByte (A : Lanes) (i a : Fin 200) (b : Byte) :
    getByte (xorByte A i b) a = if a = i then getByte A a ^^^ b else getByte A a := by
  unfold xorByte
  split
  case isTrue h => rw [h, getByte_setByte_self]
  case isFalse h => exact getByte_setByte_of_ne A i a _ h

/-- Every byte of the zero state is 0 (R42). -/
theorem getByte_zeroLanes (a : Fin 200) : getByte zeroLanes a = 0#8 := by
  simp [getByte, zeroLanes]

/-- A bit of a lane is a bit of one of its bytes (R61). -/
theorem getLsbD_lane (A : Lanes) (k : Fin 25) (j : Nat) (hj : j < 64) :
    (A[k]).getLsbD j = (getByte A ⟨8 * k.val + j / 8, by omega⟩).getLsbD (j % 8) := by
  have hk : laneOf ⟨8 * k.val + j / 8, by omega⟩ = k := Fin.ext (by simp [laneOf]; omega)
  have hs : byteShift ⟨8 * k.val + j / 8, by omega⟩ + j % 8 = j := by simp [byteShift]; omega
  have h8 : j % 8 < 8 := Nat.mod_lt _ (by omega)
  simp [getByte, hk, hs, h8]

/-- States with the same bytes are the same state (R21, R61). -/
theorem lanes_eq_of_getByte_eq (A B : Lanes) (h : ∀ a, getByte A a = getByte B a) : A = B := by
  apply Vector.ext
  intro k hk
  apply BitVec.eq_of_getLsbD_eq
  intro j hj
  have ha := getLsbD_lane A ⟨k, hk⟩ j hj
  have hb := getLsbD_lane B ⟨k, hk⟩ j hj
  rw [h] at ha
  exact ha.trans hb.symm

end Sys2Proof.Machine
end

