-- ==== Sys2Proof/Laws/PerInstr.lean ====
section
/-! SUPPORT. Per command: its word lies in its row of spec/opcode_table.json and is legal (spec/30_encoding.md R80,
R82). -/

namespace Sys2Proof.Laws

/-- The word of a command is in the command's row, with RSV zero, and passes the legality check. -/
def EncodingRow.Statement (i : Instr) : Prop :=
  (opcodeRow i).holds (encode i) = true ∧ CmdWord.rsv (encode i) = 0#4 ∧ CmdWord.legal (encode i) = true

theorem EncodingRow.nop : EncodingRow.Statement .nop := by unfold EncodingRow.Statement; decide

theorem EncodingRow.init : EncodingRow.Statement .init := by unfold EncodingRow.Statement; decide

theorem EncodingRow.absorb (b : Byte) : EncodingRow.Statement (.absorb b) := by
  unfold EncodingRow.Statement
  revert b
  decide

theorem EncodingRow.finalize : EncodingRow.Statement .finalize := by unfold EncodingRow.Statement; decide

end Sys2Proof.Laws
end

