-- ==== Sys2Proof/Laws/State.lean ====
section
/-! SUPPORT. What each register update does to each register: one lemma per field per update, so that no proof unfolds a
record update. -/

namespace Sys2Proof.Machine

variable (s : State)

@[simp] theorem State.xorState_lanes (i : Fin 200) (b : Byte) : (s.xorState i b).lanes = xorByte s.lanes i b := rfl
@[simp] theorem State.xorState_cursor (i : Fin 200) (b : Byte) : (s.xorState i b).cursor = s.cursor := rfl
@[simp] theorem State.xorState_phase (i : Fin 200) (b : Byte) : (s.xorState i b).phase = s.phase := rfl
@[simp] theorem State.xorState_busy (i : Fin 200) (b : Byte) : (s.xorState i b).busy = s.busy := rfl
@[simp] theorem State.xorState_round (i : Fin 200) (b : Byte) : (s.xorState i b).round = s.round := rfl
@[simp] theorem State.xorState_errSeq (i : Fin 200) (b : Byte) : (s.xorState i b).errSeq = s.errSeq := rfl
@[simp] theorem State.xorState_errIll (i : Fin 200) (b : Byte) : (s.xorState i b).errIll = s.errIll := rfl
@[simp] theorem State.xorState_drive (i : Fin 200) (b : Byte) : (s.xorState i b).drive = s.drive := rfl

@[simp] theorem State.setCursor_lanes (c : Fin 136) : (s.setCursor c).lanes = s.lanes := rfl
@[simp] theorem State.setCursor_cursor (c : Fin 136) : (s.setCursor c).cursor = c := rfl
@[simp] theorem State.setCursor_phase (c : Fin 136) : (s.setCursor c).phase = s.phase := rfl
@[simp] theorem State.setCursor_busy (c : Fin 136) : (s.setCursor c).busy = s.busy := rfl
@[simp] theorem State.setCursor_round (c : Fin 136) : (s.setCursor c).round = s.round := rfl
@[simp] theorem State.setCursor_errSeq (c : Fin 136) : (s.setCursor c).errSeq = s.errSeq := rfl
@[simp] theorem State.setCursor_errIll (c : Fin 136) : (s.setCursor c).errIll = s.errIll := rfl
@[simp] theorem State.setCursor_drive (c : Fin 136) : (s.setCursor c).drive = s.drive := rfl

@[simp] theorem State.setPhase_lanes (p : Phase) : (s.setPhase p).lanes = s.lanes := rfl
@[simp] theorem State.setPhase_cursor (p : Phase) : (s.setPhase p).cursor = s.cursor := rfl
@[simp] theorem State.setPhase_phase (p : Phase) : (s.setPhase p).phase = p := rfl
@[simp] theorem State.setPhase_busy (p : Phase) : (s.setPhase p).busy = s.busy := rfl
@[simp] theorem State.setPhase_round (p : Phase) : (s.setPhase p).round = s.round := rfl
@[simp] theorem State.setPhase_errSeq (p : Phase) : (s.setPhase p).errSeq = s.errSeq := rfl
@[simp] theorem State.setPhase_errIll (p : Phase) : (s.setPhase p).errIll = s.errIll := rfl
@[simp] theorem State.setPhase_drive (p : Phase) : (s.setPhase p).drive = s.drive := rfl

@[simp] theorem State.startPE_lanes : s.startPE.lanes = s.lanes := rfl
@[simp] theorem State.startPE_cursor : s.startPE.cursor = s.cursor := rfl
@[simp] theorem State.startPE_phase : s.startPE.phase = s.phase := rfl
@[simp] theorem State.startPE_busy : s.startPE.busy = true := rfl
@[simp] theorem State.startPE_round : s.startPE.round = 0 := rfl
@[simp] theorem State.startPE_errSeq : s.startPE.errSeq = s.errSeq := rfl
@[simp] theorem State.startPE_errIll : s.startPE.errIll = s.errIll := rfl
@[simp] theorem State.startPE_drive : s.startPE.drive = s.drive := rfl

@[simp] theorem State.clearRegs_lanes : s.clearRegs.lanes = zeroLanes := rfl
@[simp] theorem State.clearRegs_cursor : s.clearRegs.cursor = 0 := rfl
@[simp] theorem State.clearRegs_phase : s.clearRegs.phase = .ready := rfl
@[simp] theorem State.clearRegs_busy : s.clearRegs.busy = s.busy := rfl
@[simp] theorem State.clearRegs_round : s.clearRegs.round = 0 := rfl
@[simp] theorem State.clearRegs_errSeq : s.clearRegs.errSeq = false := rfl
@[simp] theorem State.clearRegs_errIll : s.clearRegs.errIll = false := rfl
@[simp] theorem State.clearRegs_drive : s.clearRegs.drive = s.drive := rfl

@[simp] theorem State.resetRegs_lanes : s.resetRegs.lanes = zeroLanes := rfl
@[simp] theorem State.resetRegs_cursor : s.resetRegs.cursor = 0 := rfl
@[simp] theorem State.resetRegs_phase : s.resetRegs.phase = .ready := rfl
@[simp] theorem State.resetRegs_busy : s.resetRegs.busy = false := rfl
@[simp] theorem State.resetRegs_round : s.resetRegs.round = 0 := rfl
@[simp] theorem State.resetRegs_errSeq : s.resetRegs.errSeq = false := rfl
@[simp] theorem State.resetRegs_errIll : s.resetRegs.errIll = false := rfl
@[simp] theorem State.resetRegs_drive : s.resetRegs.drive = s.drive := rfl

@[simp] theorem State.nextCycle_lanes : s.nextCycle.lanes = s.lanes := rfl
@[simp] theorem State.nextCycle_cursor : s.nextCycle.cursor = s.cursor := rfl
@[simp] theorem State.nextCycle_phase : s.nextCycle.phase = s.phase := rfl
@[simp] theorem State.nextCycle_busy : s.nextCycle.busy = s.busy := rfl
@[simp] theorem State.nextCycle_round : s.nextCycle.round = s.round := rfl
@[simp] theorem State.nextCycle_errSeq : s.nextCycle.errSeq = s.errSeq := rfl
@[simp] theorem State.nextCycle_errIll : s.nextCycle.errIll = s.errIll := rfl
@[simp] theorem State.nextCycle_drive : s.nextCycle.drive = s.drive.tail := rfl

@[simp] theorem State.raise_seqError_lanes : (s.raise .seqError).lanes = s.lanes := rfl
@[simp] theorem State.raise_seqError_cursor : (s.raise .seqError).cursor = s.cursor := rfl
@[simp] theorem State.raise_seqError_phase : (s.raise .seqError).phase = s.phase := rfl
@[simp] theorem State.raise_seqError_busy : (s.raise .seqError).busy = s.busy := rfl
@[simp] theorem State.raise_seqError_round : (s.raise .seqError).round = s.round := rfl
@[simp] theorem State.raise_seqError_errSeq : (s.raise .seqError).errSeq = true := rfl
@[simp] theorem State.raise_seqError_errIll : (s.raise .seqError).errIll = s.errIll := rfl
@[simp] theorem State.raise_seqError_drive : (s.raise .seqError).drive = s.drive := rfl

@[simp] theorem State.raise_illegalCommand_lanes (w : CmdWord) : (s.raise (.illegalCommand w)).lanes = s.lanes := rfl
@[simp] theorem State.raise_illegalCommand_cursor (w : CmdWord) : (s.raise (.illegalCommand w)).cursor = s.cursor := rfl
@[simp] theorem State.raise_illegalCommand_phase (w : CmdWord) : (s.raise (.illegalCommand w)).phase = s.phase := rfl
@[simp] theorem State.raise_illegalCommand_busy (w : CmdWord) : (s.raise (.illegalCommand w)).busy = s.busy := rfl
@[simp] theorem State.raise_illegalCommand_round (w : CmdWord) : (s.raise (.illegalCommand w)).round = s.round := rfl
@[simp] theorem State.raise_illegalCommand_errSeq (w : CmdWord) : (s.raise (.illegalCommand w)).errSeq = s.errSeq := rfl
@[simp] theorem State.raise_illegalCommand_errIll (w : CmdWord) : (s.raise (.illegalCommand w)).errIll = true := rfl
@[simp] theorem State.raise_illegalCommand_drive (w : CmdWord) : (s.raise (.illegalCommand w)).drive = s.drive := rfl

end Sys2Proof.Machine
end

