-- ==== Sys2Proof/Laws/Permutation.lean ====
section
/-! SUPPORT. The permutation engine: the rounds one at a time, and what a round step and the end of a permutation do
(spec/40_permutation.md R113 to R116). -/

namespace Sys2Proof.Machine

/-- The rounds from `r` are round `r` and then the rounds from `r + 1` (R113). -/
theorem roundsFrom_eq (r : Fin 24) (A : Lanes) :
    roundsFrom r.val A = roundsFrom (r.val + 1) (keccakRound A r) := by
  have hl : r.val < (List.finRange 24).length := by simp
  unfold roundsFrom
  rw [List.drop_eq_getElem_cons hl, List.foldl_cons]
  simp

/-- No round is left after round 23. -/
theorem roundsFrom_end (A : Lanes) : roundsFrom 24 A = A := by
  unfold roundsFrom
  rw [List.drop_of_length_le (by simp)]
  rfl

/-- What a round step does: one of R114's two cases. -/
theorem State.peRound_cases (s : State) :
    (s.round = 23 ∧ s.peRound =
      { s with lanes := keccakRound s.lanes s.round, busy := false, round := 0, phase := finishPhase s.phase }) ∨
    (s.round ≠ 23 ∧ s.peRound = { s with lanes := keccakRound s.lanes s.round, round := s.round + 1 }) := by
  unfold State.peRound
  split
  · exact .inl ⟨‹_›, rfl⟩
  · exact .inr ⟨‹_›, rfl⟩

/-- The next round's index, below the last round. -/
theorem round_succ_val (r : Fin 24) (h : r ≠ 23) : (r + 1).val = r.val + 1 := by
  have : r.val ≠ 23 := fun e => h (Fin.ext e)
  rw [Fin.val_add, show (1 : Fin 24).val = 1 from rfl]
  omega

@[simp] theorem State.peRound_lanes (s : State) : s.peRound.lanes = keccakRound s.lanes s.round := by
  rcases s.peRound_cases with ⟨_, h⟩ | ⟨_, h⟩ <;> rw [h]

@[simp] theorem State.peRound_cursor (s : State) : s.peRound.cursor = s.cursor := by
  rcases s.peRound_cases with ⟨_, h⟩ | ⟨_, h⟩ <;> rw [h]

@[simp] theorem State.peRound_errSeq (s : State) : s.peRound.errSeq = s.errSeq := by
  rcases s.peRound_cases with ⟨_, h⟩ | ⟨_, h⟩ <;> rw [h]

@[simp] theorem State.peRound_errIll (s : State) : s.peRound.errIll = s.errIll := by
  rcases s.peRound_cases with ⟨_, h⟩ | ⟨_, h⟩ <;> rw [h]

@[simp] theorem State.peRound_drive (s : State) : s.peRound.drive = s.drive := by
  rcases s.peRound_cases with ⟨_, h⟩ | ⟨_, h⟩ <;> rw [h]

/-- An idle PE has nothing to finish. -/
theorem State.settle_of_idle (s : State) (h : s.busy = false) : s.settle = s := by
  unfold State.settle
  simp [h]

/-- Finishing a running permutation. -/
theorem State.settle_of_busy (s : State) (h : s.busy = true) :
    s.settle =
      { s with lanes := roundsFrom s.round.val s.lanes, busy := false, round := 0, phase := finishPhase s.phase } := by
  unfold State.settle
  rw [if_pos h]

/-- A settled state is idle. -/
@[simp] theorem State.settle_busy (s : State) : s.settle.busy = false := by
  cases h : s.busy
  · rw [s.settle_of_idle h, h]
  · rw [s.settle_of_busy h]

@[simp] theorem State.settle_drive (s : State) : s.settle.drive = s.drive := by
  cases h : s.busy
  · rw [s.settle_of_idle h]
  · rw [s.settle_of_busy h]

/-- Neither the PE nor settling looks at what the host drives. -/
theorem State.settle_withDrive (s : State) (ds : List PortIn) :
    ({ s with drive := ds } : State).settle = { s.settle with drive := ds } := by
  unfold State.settle
  by_cases h : s.busy = true <;> simp [h]

/-- Round steps lead where `settle` says (R116). -/
theorem State.settle_peRound (s : State) (h : s.busy = true) : s.peRound.settle = s.settle := by
  rw [s.settle_of_busy h, roundsFrom_eq]
  rcases s.peRound_cases with ⟨hr, hp⟩ | ⟨hr, hp⟩
  · have h24 : s.round.val + 1 = 24 := by rw [hr]; rfl
    rw [hp, State.settle_of_idle _ rfl, h24, roundsFrom_end]
  · have hb : s.peRound.busy = true := by rw [hp]; exact h
    rw [State.settle_of_busy _ hb, hp]
    simp only [round_succ_val s.round hr]

end Sys2Proof.Machine
end

