-- ==== Sys2Proof/Laws/Sponge.lean ====
section
/-! SUPPORT. What each command and each shared operation of the sponge controller can do, said once
(spec/41_sponge.md R141 to R146). -/

namespace Sys2Proof.Machine

/-- ABSORB's cursor update: the end of the block, or the next offset (R143). -/
theorem State.advanceCursor_cases (s : State) :
    (s.cursor = lastOffset ∧ s.advanceCursor = { s with cursor := 0, busy := true, round := 0 }) ∨
    (s.cursor ≠ lastOffset ∧ s.advanceCursor = { s with cursor := s.cursor + 1 }) := by
  unfold State.advanceCursor
  split
  · exact .inl ⟨‹_›, rfl⟩
  · exact .inr ⟨‹_›, rfl⟩

@[simp] theorem State.advanceCursor_lanes (s : State) : s.advanceCursor.lanes = s.lanes := by
  rcases s.advanceCursor_cases with ⟨_, h⟩ | ⟨_, h⟩ <;> rw [h]

@[simp] theorem State.advanceCursor_phase (s : State) : s.advanceCursor.phase = s.phase := by
  rcases s.advanceCursor_cases with ⟨_, h⟩ | ⟨_, h⟩ <;> rw [h]

@[simp] theorem State.advanceCursor_errSeq (s : State) : s.advanceCursor.errSeq = s.errSeq := by
  rcases s.advanceCursor_cases with ⟨_, h⟩ | ⟨_, h⟩ <;> rw [h]

@[simp] theorem State.advanceCursor_errIll (s : State) : s.advanceCursor.errIll = s.errIll := by
  rcases s.advanceCursor_cases with ⟨_, h⟩ | ⟨_, h⟩ <;> rw [h]

@[simp] theorem State.advanceCursor_drive (s : State) : s.advanceCursor.drive = s.drive := by
  rcases s.advanceCursor_cases with ⟨_, h⟩ | ⟨_, h⟩ <;> rw [h]

/-- The next offset's number, below the end of the block. -/
theorem cursor_succ_val (c : Fin 136) (h : c ≠ lastOffset) : (c + 1).val = c.val + 1 := by
  have : c.val ≠ 135 := fun e => h (Fin.ext e)
  rw [Fin.val_add, show (1 : Fin 136).val = 1 from rfl]
  omega

/-- The bytes after FINALIZE's padding (R144, C5). -/
theorem State.getByte_pad (s : State) (a : Fin 200) :
    getByte s.pad.lanes a =
      if a = endMarkerAddr then
        (if a = cursorAddr s then getByte s.lanes a ^^^ Config.domainByte else getByte s.lanes a) ^^^ Config.endMarker
      else if a = cursorAddr s then getByte s.lanes a ^^^ Config.domainByte else getByte s.lanes a := by
  simp only [State.pad, State.xorState_lanes, getByte_xorByte]

/-- Padding writes nothing but the state (R144). -/
theorem State.pad_eq (s : State) : s.pad = { s with lanes := s.pad.lanes } := rfl

/-- Every command answers a next state: one of these (R141 to R146). -/
theorem exec_cases (i : Instr) (s t : State) (h : exec i s = .next t) :
    (i = .nop ∧ t = s) ∨ (i = .init ∧ t = s.clearRegs) ∨
    ((∃ b, i = .absorb b) ∧ s.phase = .finalized ∧ t = s.raise .seqError) ∨
    (i = .finalize ∧ s.phase = .finalized ∧ t = s.raise .seqError) ∨
    (∃ b, i = .absorb b ∧ s.phase ≠ .finalized ∧ t = (s.xorState (cursorAddr s) b).advanceCursor) ∨
    (i = .finalize ∧ s.phase ≠ .finalized ∧ t = (s.pad.setPhase .finalizing).startPE) := by
  cases i with
  | nop => cases h; exact .inl ⟨rfl, rfl⟩
  | init => cases h; exact .inr (.inl ⟨rfl, rfl⟩)
  | absorb b =>
    simp only [exec, execAbsorb] at h
    split at h <;> cases h
    · exact .inr (.inr (.inl ⟨⟨b, rfl⟩, ‹_›, rfl⟩))
    · exact .inr (.inr (.inr (.inr (.inl ⟨b, rfl, ‹_›, rfl⟩))))
  | finalize =>
    simp only [exec, execFinalize] at h
    split at h <;> cases h
    · exact .inr (.inr (.inr (.inl ⟨rfl, ‹_›, rfl⟩)))
    · exact .inr (.inr (.inr (.inr (.inr ⟨rfl, ‹_›, rfl⟩))))

/-- No command stops the machine. -/
theorem exec_total (i : Instr) (s : State) : ∃ t, exec i s = .next t := by
  cases i with
  | nop => exact ⟨_, rfl⟩
  | init => exact ⟨_, rfl⟩
  | absorb b => simp only [exec, execAbsorb]; split <;> exact ⟨_, rfl⟩
  | finalize => simp only [exec, execFinalize]; split <;> exact ⟨_, rfl⟩

end Sys2Proof.Machine
end

