-- ==== Sys2Proof/Laws/Step.lean ====
section
/-! SUPPORT. What one clock edge can do, said once (spec/41_sponge.md R140, spec/60_exceptions.md R184). -/

namespace Sys2Proof.Machine

/-- An accepted word: its command's effect, or an illegal word's flag (R83, R145). -/
theorem acceptWord_cases (w : CmdWord) (s t : State) (h : acceptWord w s = .next t) :
    (∃ i, decode w = .ok i ∧ exec i s = .next t) ∨
    (∃ e, decode w = .error e ∧ t = s.raise (.illegalCommand e.word)) := by
  unfold acceptWord at h
  split at h
  · exact .inl ⟨_, ‹_›, h⟩
  · cases h; exact .inr ⟨_, ‹_›, rfl⟩

/-- An accepted word never stops the machine. -/
theorem acceptWord_total (w : CmdWord) (s : State) : ∃ t, acceptWord w s = .next t := by
  unfold acceptWord
  split
  · exact exec_total _ s
  · exact ⟨_, rfl⟩

/-- R140: an edge is a reset, a round step, an accepted word, or nothing. -/
theorem edge_cases (p : PortIn) (s t : State) (h : edge p s = .next t) :
    (p.rst = true ∧ t = s.resetRegs) ∨ (p.rst = false ∧ s.busy = true ∧ t = s.peRound) ∨
    (p.rst = false ∧ s.busy = false ∧ p.cmdValid = true ∧ acceptWord p.cmdWord s = .next t) ∨
    (p.rst = false ∧ s.busy = false ∧ p.cmdValid = false ∧ t = s) := by
  unfold edge at h
  cases hr : p.rst <;> cases hb : s.busy <;> cases hv : p.cmdValid <;> simp_all

/-- An edge never stops the machine (R180, R185). -/
theorem edge_total (p : PortIn) (s : State) : ∃ t, edge p s = .next t := by
  unfold edge
  split
  · exact ⟨_, rfl⟩
  · split
    · exact ⟨_, rfl⟩
    · split
      · exact acceptWord_total _ s
      · exact ⟨_, rfl⟩

/-- A step is the edge under the present inputs, taken with the host moved on. -/
theorem step_cases (s t : State) (h : step s = .next t) :
    (s.port.rst = true ∧ t = s.nextCycle.resetRegs) ∨
    (s.port.rst = false ∧ s.busy = true ∧ t = s.nextCycle.peRound) ∨
    (s.port.rst = false ∧ s.busy = false ∧ s.port.cmdValid = true ∧
      acceptWord s.port.cmdWord s.nextCycle = .next t) ∨
    (s.port.rst = false ∧ s.busy = false ∧ s.port.cmdValid = false ∧ t = s.nextCycle) :=
  edge_cases s.port s.nextCycle t h

/-- A step never stops the machine. -/
theorem step_total (s : State) : ∃ t, step s = .next t := edge_total _ _

/-- No command and no edge looks at what the host will drive, or changes it (R31: the word is sampled at its edge only). -/
theorem exec_withDrive (i : Instr) (s t : State) (ds : List PortIn) (h : exec i s = .next t) :
    exec i { s with drive := ds } = .next { t with drive := ds } := by
  rcases exec_cases i s t h with ⟨rfl, rfl⟩ | ⟨rfl, rfl⟩ | ⟨⟨b, rfl⟩, hp, rfl⟩ | ⟨rfl, hp, rfl⟩ | ⟨b, rfl, hp, rfl⟩ |
    ⟨rfl, hp, rfl⟩
  · rfl
  · rfl
  · simp [exec, execAbsorb, hp, State.raise]
  · simp [exec, execFinalize, hp, State.raise]
  · simp only [exec, execAbsorb, hp, if_false, State.advanceCursor, State.xorState]
    by_cases hc : s.cursor = lastOffset <;> simp [hc, State.setCursor, State.startPE, cursorAddr]
  · simp only [exec, execFinalize, hp, if_false]; rfl

end Sys2Proof.Machine
end

