-- ==== Sys2Proof/Laws/Reference.lean ====
section
/-! SUPPORT. Accepted words, sequences of words and of edges, and the byte views the reference forms are compared
through (spec/10_state.md R31, spec/20_memory.md R61, R70, spec/41_sponge.md R148). -/

namespace Sys2Proof.Machine

/-- When a word is accepted (R31, R32). -/
theorem State.accepts_iff (s : State) (w : CmdWord) :
    s.Accepts w ↔ s.port.rst = false ∧ s.busy = false ∧ s.port.cmdValid = true ∧ s.port.cmdWord = w := by
  simp only [State.Accepts, accepts, cmdReady, Bool.and_eq_true, Bool.not_eq_true']
  tauto

/-- No reset in the next `n + 1` cycles means none in the present one. -/
theorem State.NoResetFor.port (s : State) (n : Nat) (h : s.NoResetFor (n + 1)) : s.port.rst = false := by
  unfold State.port
  cases hd : s.drive with
  | nil => rfl
  | cons p ps => exact h p (by simp [hd])

/-- … and none in the `n` cycles after it. -/
theorem State.NoResetFor.tail (s t : State) (n : Nat) (h : s.NoResetFor (n + 1)) (ht : t.drive = s.drive.tail) :
    t.NoResetFor n := by
  intro p hp
  apply h p
  cases hd : s.drive with
  | nil => simp [ht, hd] at hp
  | cons q ps =>
    rw [ht, hd] at hp
    exact List.mem_cons_of_mem q hp

/-- Every step moves the host on by one cycle and changes nothing else of what it drives. -/
theorem step_drive (s t : State) (h : step s = .next t) : t.drive = s.drive.tail := by
  rcases step_cases s t h with ⟨_, rfl⟩ | ⟨_, _, rfl⟩ | ⟨_, _, _, h⟩ | ⟨_, _, _, rfl⟩
  · rfl
  · simp
  · rcases acceptWord_cases _ _ _ h with ⟨i, _, h⟩ | ⟨e, _, rfl⟩
    · rcases exec_cases i _ t h with ⟨_, rfl⟩ | ⟨_, rfl⟩ | ⟨_, _, rfl⟩ | ⟨_, _, rfl⟩ | ⟨b, _, _, rfl⟩ | ⟨_, _, rfl⟩
      · rfl
      · rfl
      · rfl
      · rfl
      · simp
      · rfl
    · rfl
  · rfl

/-- An accepted word does not depend on what the host will drive. -/
theorem acceptWord_withDrive (w : CmdWord) (s t : State) (ds : List PortIn) (h : acceptWord w s = .next t) :
    acceptWord w { s with drive := ds } = .next { t with drive := ds } := by
  rcases acceptWord_cases _ _ _ h with ⟨i, hi, h⟩ | ⟨e, he, rfl⟩
  · simp [acceptWord, hi, exec_withDrive i s t ds h]
  · simp [acceptWord, he, State.raise]

/-- A word carried out whole ends in an idle state. -/
theorem State.runWord_total (s : State) (w : CmdWord) : ∃ t, s.runWord w = .next t ∧ t.busy = false := by
  obtain ⟨t, h⟩ := acceptWord_total w s
  exact ⟨t.settle, by simp [State.runWord, h], by simp⟩

/-- A sequence of words never stops the machine. -/
theorem State.runWords_total (ws : List CmdWord) : ∀ s : State, ∃ t, s.runWords ws = .next t := by
  induction ws with
  | nil => exact fun s => ⟨s, rfl⟩
  | cons w ws ih =>
    intro s
    obtain ⟨t, h, _⟩ := s.runWord_total w
    obtain ⟨u, hu⟩ := ih t
    exact ⟨u, by simp [State.runWords, h, hu]⟩

/-- A sequence of words does not depend on what the host drives. -/
theorem State.runWords_withDrive (ws : List CmdWord) (ds : List PortIn) :
    ∀ s t : State, s.runWords ws = .next t → ({ s with drive := ds } : State).runWords ws = .next { t with drive := ds } := by
  induction ws with
  | nil => intro s t h; cases h; rfl
  | cons w ws ih =>
    intro s t h
    obtain ⟨u, hu⟩ := acceptWord_total w s
    have h2 := acceptWord_withDrive w s u ds hu
    simp only [State.runWords, State.runWord, hu, h2] at h ⊢
    rw [State.settle_withDrive]
    exact ih _ _ h

/-- Words in two parts. -/
theorem State.runWords_append (ws vs : List CmdWord) :
    ∀ s t : State, s.runWords ws = .next t → s.runWords (ws ++ vs) = t.runWords vs := by
  induction ws with
  | nil => intro s t h; cases h; rfl
  | cons w ws ih =>
    intro s t h
    obtain ⟨u, hu, _⟩ := s.runWord_total w
    simp only [List.cons_append, State.runWords, hu] at h ⊢
    exact ih _ _ h

/-- Edges in a row, the last one split off. -/
theorem runEdges_succ (n : Nat) (s t : State) (h : runEdges n s = .next t) : runEdges (n + 1) s = step t := by
  induction n generalizing s with
  | zero =>
    cases h
    obtain ⟨u, hu⟩ := step_total t
    rw [runEdges, hu]
    rfl
  | succ n ih =>
    obtain ⟨u, hu⟩ := step_total s
    rw [runEdges, hu]
    rw [runEdges, hu] at h
    exact ih u h

/-- A bit of `MemRead` is a bit of its byte (R12, R61). -/
theorem getLsbD_memRead (A : Lanes) (addr n : Nat) (h : addr + n ≤ 200) (j : Nat) (hj : j < 8 * n) :
    (memRead A addr n h).getLsbD j = (getByte A ⟨addr + j / 8, by omega⟩).getLsbD (j % 8) := by
  induction n with
  | zero => omega
  | succ n ih =>
    simp only [memRead, BitVec.getLsbD_cast, BitVec.getLsbD_append]
    split
    · exact ih (by omega) ‹_›
    · have e1 : j / 8 = n := by omega
      have e2 : j % 8 = j - 8 * n := by omega
      simp only [e1, e2]

end Sys2Proof.Machine
end

