-- ==== Sys2Proof/Tests/Slice0.lean ====
section
/-! SUPPORT. The implementer's own tests: words written out from spec/30_encoding.md, single steps against the vectors of
spec/95_test_vectors.md, and for each statement with hypotheses a state and operands that meet them. -/

namespace Sys2Proof.Tests

open Sys2Proof Sys2Proof.Machine

/-! ### Small states -/

/-- The reset state with a cursor. -/
def atCursor (c : Fin 136) : State := { State.reset with cursor := c }

/-- A running permutation at round `r` in phase `p`. -/
def running (p : Phase) (r : Fin 24) : State := { State.reset with phase := p, busy := true, round := r }

/-- The digest is available. -/
def done : State := { State.reset with phase := .finalized }

/-- The state with words presented one a cycle. -/
def fed (s : State) (ws : List CmdWord) : State := { s with drive := ws.map PortIn.present }

/-- The state with `rst = 1` in the present cycle. -/
def resetting (s : State) : State := { s with drive := [.reset] }

/-- The status after one step. -/
def statusAfter (s : State) : Option StatusWord :=
  match step s with
  | .next t => some (statusO t)
  | .fault _ => none
  | .refused _ => none

/-- One lane after one step. -/
def laneAfter (s : State) (k : Fin 25) : Option Lane :=
  match step s with
  | .next t => some t.lanes[k]
  | .fault _ => none
  | .refused _ => none

/-! ### Well-formedness: a legal word and an ill-formed word for each check of R82 and R84 -/

theorem test_absorb_term_wellformed : (Instr.absorb 0xFF#8).wellFormed = true := by decide

theorem test_word_legal : CmdWord.legal 0b0010_0000_0110_0001#16 = true := by decide

/-- R84(a): OP = 4. -/
theorem test_word_bad_op : CmdWord.legal 0b0100_0000_0000_0000#16 = false := by decide

/-- R84(b): RSV = 1. -/
theorem test_word_bad_rsv : CmdWord.legal 0b0010_0001_0000_0000#16 = false := by decide

/-- R84(c): DATA ≠ 0 on FINALIZE. -/
theorem test_word_bad_data : CmdWord.legal 0b0011_0000_0000_0001#16 = false := by decide

/-- R87: a value outside 0..255 is an assembly error. -/
theorem test_asm_operand_too_large : AsmLine.wellFormed (.absorb 256) = false := by decide

/-- R87: `imm16` has 16 bits. -/
theorem test_asm_word_too_large : AsmLine.wellFormed (.word 65536) = false := by decide

/-- R88: ASCII codes only. -/
theorem test_asm_text_not_ascii : AsmLine.wellFormed (.absorbStr [Char.ofNat 233]) = false := by decide

/-! ### Decoding: each row's word, bit by bit (R80, R82) -/

theorem test_decode_nop : decode 0b0000_0000_0000_0000#16 = .ok .nop := by decide

theorem test_decode_init : decode 0b0001_0000_0000_0000#16 = .ok .init := by decide

/-- V-D: 0x2061. -/
theorem test_decode_absorb : decode 0b0010_0000_0110_0001#16 = .ok (.absorb 0x61#8) := by decide

theorem test_decode_finalize : decode 0b0011_0000_0000_0000#16 = .ok .finalize := by decide

/-- V-D: 0x2F61, 0x3800, 0x10FF and 0xF000 are illegal. -/
theorem test_decode_illegal :
    decode 0x2F61#16 = .error (.badRsv 0x2F61#16) ∧ decode 0x3800#16 = .error (.badRsv 0x3800#16) ∧
    decode 0x10FF#16 = .error (.badData 0x10FF#16) ∧ decode 0xF000#16 = .error (.badOp 0xF000#16) := by decide

theorem test_table_word : decodeTableWord 16 0x2061 = some (.absorb 0x61#8) ∧ decodeTableWord 16 0x3001 = none := by
  decide

/-- R87: comments, case and literals; R88: pseudo-instructions. -/
theorem test_assembly_text :
    assembleText ["init ; start".toList, "Absorb 'a'".toList, ".word 0x3001".toList, "; nothing".toList,
      "ABSORB_FILL 0xA3, 2".toList, "ABSORB_STR \"a;b\"".toList, "WAIT_DIGEST".toList]
    = some [0x1000#16, 0x2061#16, 0x3001#16, 0x20A3#16, 0x20A3#16, 0x2061#16, 0x203B#16, 0x2062#16] ∧
    assembleText ["ABSORB 256".toList] = none := by decide

/-! ### The permutation (spec/95_test_vectors.md) -/

/-- V-ROT, row 5. -/
theorem test_rotl : rotl64 0x0123456789ABCDEF#64 8 = 0x23456789ABCDEF01#64 := by decide

/-- R100, where the two columns of its table meet and end. -/
theorem test_round_constants : roundConstants[0] = 0x0000000000000001#64 ∧ roundConstants[11] = 0x000000008000000A#64 ∧
    roundConstants[12] = 0x000000008000808B#64 ∧ roundConstants[23] = 0x8000000080008008#64 := by decide

/-- V-R3. -/
theorem test_rhopi : rhopi (zeroLanes.set 6 0x8000000000000000#64) = zeroLanes.set 1 0x0000080000000000#64 := by decide

/-- V-C3: fails under an in-place χ. -/
theorem test_chi_not_in_place : chi ((zeroLanes.set 0 1#64).set 2 1#64) = (zeroLanes.set 2 1#64).set 3 1#64 := by decide

/-- V-T3. -/
theorem test_theta : (theta (zeroLanes.set 7 1#64))[1] = 2#64 ∧ (theta (zeroLanes.set 7 1#64))[3] = 1#64 ∧
    (theta (zeroLanes.set 7 1#64))[7] = 1#64 ∧ (theta (zeroLanes.set 7 1#64))[2] = 0#64 := by decide

/-- V-N4: one round of the empty message's padded state. -/
theorem test_round : keccakRound ((zeroLanes.set 0 1#64).set 16 0x8000000000000000#64) 0 =
    #v[0x0000040000000001, 0x0000100000000000, 0x0000040000008000, 0, 0x0000100000008000, 0x0000000000000008,
       0x0000300000200000, 0x1000000000000008, 0x0000300000000000, 0x1000000000200000, 0x0000000000000002,
       0x0000000000000220, 0x0000000000040000, 0x0000000000000202, 0x0000000000040020, 0x0000000010000400,
       0x0000001000004000, 0x0000000000000400, 0x0000000010004000, 0x0000001000000000, 0x2000010000000000,
       0x0000020000000000, 0x0000010000000004, 0x2000020000000000, 0x0000000000000004] := by decide

/-! ### Single steps -/

/-- R141's example: cursor 3, status 0x0300 stays. -/
theorem test_nop : statusAfter (fed (atCursor 3) [0x0000#16]) = some 0x0300#16 := by decide

/-- V-E5: both flags set in FINALIZED, status 0x003C; INIT gives 0x0000. -/
theorem test_init : statusO { done with errSeq := true, errIll := true } = 0x003C#16 ∧
    statusAfter (fed { done with errSeq := true, errIll := true } [0x1000#16]) = some 0x0000#16 := by decide

/-- V-S3c: the second byte goes to `S[1]`. -/
theorem test_absorb_second_byte :
    laneAfter (fed { atCursor 1 with lanes := zeroLanes.set 0 0x61#64 } [0x2061#16]) 0 = some 0x6161#64 ∧
    statusAfter (fed (atCursor 1) [0x2061#16]) = some 0x0200#16 := by decide

/-- V-K8: the 136th byte sets cursor 0 and BUSY. -/
theorem test_absorb_fills_block : statusAfter (fed (atCursor 135) [0x2000#16]) = some 0x0001#16 := by decide

/-- V-S4. -/
theorem test_finalize_empty : statusAfter (fed State.reset [0x3000#16]) = some 0x0003#16 ∧
    laneAfter (fed State.reset [0x3000#16]) 0 = some 1#64 ∧
    laneAfter (fed State.reset [0x3000#16]) 16 = some 0x8000000000000000#64 := by decide

/-- V-K7: at cursor 135 the byte becomes 0x81; status 0x8703. -/
theorem test_finalize_last_byte : statusAfter (fed (atCursor 135) [0x3000#16]) = some 0x8703#16 ∧
    laneAfter (fed (atCursor 135) [0x3000#16]) 16 = some 0x8100000000000000#64 := by decide

/-- V-E1, V-E2: misuse in status 0x0024 gives 0x002C. -/
theorem test_misuse : statusAfter (fed done [0x2000#16]) = some 0x002C#16 ∧
    statusAfter (fed done [0x3000#16]) = some 0x002C#16 := by decide

/-- V-E3, V-E4: an illegal word in READY and in FINALIZED. -/
theorem test_illegal_word : statusAfter (fed State.reset [0x3001#16]) = some 0x0010#16 ∧
    statusAfter (fed done [0x2100#16]) = some 0x0034#16 := by decide

/-- R114: the last round edge of the final permutation sets DV and clears BUSY; a word presented there is not taken. -/
theorem test_last_round_edge : statusAfter (fed (running .finalizing 23) [0x1000#16]) = some 0x0024#16 := by decide

/-- R200: reset wins over a running round. -/
theorem test_reset_edge : statusAfter (resetting (running .finalizing 7)) = some 0x0000#16 := by decide

/-- The host's check: a table word runs as the first instruction after reset. -/
theorem test_fetch_word : statusAfter (State.reset.withFetchWord 16 0x2061) = some 0x0100#16 := by decide

/-- R63's regions at their edges. -/
theorem test_regions : regionOf 31 = .digestWindow ∧ regionOf 32 = .rate ∧ regionOf 134 = .rate ∧
    regionOf 135 = .lastRateByte ∧ regionOf 136 = .capacity := by decide

/-- R8: the rate formula and its invariant. -/
theorem test_rate : Config.rate = 136 ∧ Config.rate + Config.capacity = 200 := by decide

/-- R218: the run of P1 has ended once nothing is left, the PE is idle and the digest is valid. -/
theorem test_run_ended : runEnded [0x1000#16, 0x3000#16] [] done = true ∧
    runEnded [0x1000#16, 0x3000#16] [] (running .finalizing 3) = false ∧
    observe State.reset = { status := 0x0000#16, digest := none } := by decide

/-! ### Witnesses: states and operands that meet each statement's hypotheses -/

theorem witness_DecodeFollowsTheCascade :
    (0x2000#16).extractLsb' 8 8 = 0x20#8 ∧
    (0x1001#16 ≠ 0x0000#16 ∧ 0x1001#16 ≠ 0x1000#16 ∧ (0x1001#16).extractLsb' 8 8 ≠ 0x20#8 ∧ 0x1001#16 ≠ 0x3000#16) := by
  decide

theorem witness_OpcodeRowsPartition :
    decode 0x20FF#16 = .ok (.absorb 0xFF#8) ∧ (⟨0x2000#16, 0xFF00#16⟩ : OpcodeRow) ∈ opcodeTable ∧
    decode 0x2100#16 = .error (.badRsv 0x2100#16) := by decide

theorem witness_AssemblyExpansions : (255 : Nat) < 256 ∧ 256 ≤ (256 : Nat) := by decide

theorem witness_ByteWriteChangesOnlyItsBits :
    (199 : Fin 200) ≠ 0 ∧ (1599 : Fin 1600).val / 8 ≠ (0 : Fin 200).val := by decide

theorem witness_MemWriteThenMemRead :
    192 + 8 ≤ 200 ∧ (191 : Fin 200).val < 192 ∧ 0 + 8 ≤ 200 ∧ 0 + 8 ≤ (8 : Fin 200).val := by decide

theorem witness_RotationFormula : 1 ≤ 1 ∧ 1 ≤ 63 ∧ 63 ≤ 63 := by decide

theorem witness_RotationMovesBits : 1 ≤ 63 ∧ 63 ≤ 63 ∧ 63 < 64 ∧ 0 < 64 := by decide

theorem witness_ThetaByLanes : ∃ (A : Lanes) (C : Fin 5 → Lane),
    ∀ x : Fin 5, C x = A[x.val] ^^^ A[x.val + 5] ^^^ A[x.val + 10] ^^^ A[x.val + 15] ^^^ A[x.val + 20] :=
  ⟨zeroLanes, fun _ => 0#64, by decide⟩

theorem witness_RhoPiByDestination : (1 : Fin 25) ≠ 0 ∧ (24 : Fin 25) ≠ 0 := by decide

theorem witness_IotaTouchesLaneZero : (1 : Fin 25) ≠ 0 := by decide

/-- The lanes after each round from the zero state. -/
def roundTrace : Nat → Lanes
  | 0 => zeroLanes
  | r + 1 => if h : r < 24 then keccakRound (roundTrace r) ⟨r, h⟩ else zeroLanes

theorem witness_KeccakFIsTwentyFourRounds :
    roundTrace 0 = zeroLanes ∧ ∀ r : Fin 24, roundTrace (r.val + 1) = keccakRound (roundTrace r.val) r :=
  ⟨rfl, fun r => by simp [roundTrace]⟩

theorem witness_EdgePrecedence :
    (resetting (running .ready 3)).port.rst = true ∧
    ((fed (running .ready 3) [0x1000#16]).port.rst = false ∧ (running .ready 3).busy = true) ∧
    ((fed State.reset [0x3000#16]).port.cmdValid = true ∧ State.reset.busy = false ∧
      decode (fed State.reset [0x3000#16]).port.cmdWord = .ok .finalize ∧
      decode (fed State.reset [0x3001#16]).port.cmdWord = .error (.badData 0x3001#16)) ∧
    (State.reset.port.rst = false ∧ State.reset.port.cmdValid = false) := by decide

theorem witness_StepRunsDecodedCommand :
    (fed State.reset [0x0000#16]).Accepts (encode .nop) ∧ (fed State.reset [0x1000#16]).Accepts (encode .init) ∧
    (fed (atCursor 135) [0x20FF#16]).Accepts (encode (.absorb 0xFF#8)) ∧ (fed done [0x3000#16]).Accepts (encode .finalize) :=
  ⟨⟨rfl, rfl⟩, ⟨rfl, rfl⟩, ⟨rfl, rfl⟩, ⟨rfl, rfl⟩⟩

theorem witness_FetchWordRunsNext : decodeTableWord 16 0x20FF = some (.absorb 0xFF#8) := by decide

theorem witness_NopChangesNothing : (0x0100#16).extractLsb' 12 4 = 0#4 ∧ 0x0100#16 ≠ 0x0000#16 := by decide

theorem witness_BusyIgnoresCommandPort :
    (running .finalizing 0).busy = true ∧ (PortIn.present 0x1000#16).rst = PortIn.idle.rst := by decide

theorem witness_IllegalWordSetsErrIllOnly :
    (fed State.reset [0x4000#16]).Accepts 0x4000#16 ∧ CmdWord.legal 0x4000#16 = false ∧
    (fed done [0x2100#16]).Accepts 0x2100#16 ∧ CmdWord.legal 0x2100#16 = false ∧
    statusO (fed State.reset [0x4000#16]) = 0x0000#16 :=
  ⟨⟨rfl, rfl⟩, rfl, ⟨rfl, rfl⟩, rfl, by decide⟩

theorem witness_InitClearsRegisters : done.busy = false ∧ (running .ready 5).busy = true := by decide

theorem witness_AbsorbWithinBlock :
    (atCursor 0).phase ≠ .finalized ∧ (atCursor 0).cursor.val < 135 ∧ (atCursor 134).cursor.val < 135 := by decide

theorem witness_AbsorbFillsBlock : (atCursor 135).phase ≠ .finalized ∧ (atCursor 135).cursor.val = 135 := by decide

theorem witness_FinalizePadsAndStarts :
    (atCursor 0).phase ≠ .finalized ∧ (atCursor 135).phase ≠ .finalized ∧ (atCursor 135).cursor.val = 135 := by decide

theorem witness_MisuseSetsErrSeqOnly : done.phase = .finalized ∧ statusO done = 0x0024#16 := by decide

theorem witness_CommandFrame :
    (∃ t, exec (.absorb 1#8) (atCursor 135) = .next t) ∧ (∃ t, exec .finalize (atCursor 7) = .next t) ∧
    (∃ t, exec .finalize done = .next t) ∧ (∃ t, exec .nop done = .next t) ∧
    (136 : Fin 200) ∉ xorAddrs .finalize (atCursor 7) ∧ regionOf 199 = .capacity :=
  ⟨⟨_, rfl⟩, ⟨_, rfl⟩, ⟨_, rfl⟩, ⟨_, rfl⟩, by decide, by decide⟩

theorem witness_RoundStepAtEachBusyEdge :
    (running .finalizing 23).port.rst = false ∧ (running .finalizing 23).busy = true ∧
    (running .finalizing 23).round.val = 23 ∧ (running .ready 23).phase ≠ .finalizing ∧
    (running .ready 22).round.val ≠ 23 := by decide

theorem witness_PermutationTakesTwentyFourEdges :
    (fed (running .ready 0) [0x2000#16, 0x3000#16]).busy = true ∧ (fed (running .ready 0) [0x2000#16]).round = 0 ∧
    (fed (running .ready 0) [0x2000#16, 0x3000#16]).NoResetFor 24 :=
  ⟨rfl, rfl, by unfold State.NoResetFor; decide⟩

theorem witness_FinalizeGivesDigest :
    (fed (atCursor 135) [0x3000#16, 0x1000#16]).Accepts (encode .finalize) ∧
    (fed (atCursor 135) [0x3000#16, 0x1000#16]).phase = .ready ∧
    (fed (atCursor 135) [0x3000#16, 0x1000#16]).NoResetFor 25 ∧ 1 ≤ 24 :=
  ⟨⟨rfl, rfl⟩, rfl, by unfold State.NoResetFor; decide, by decide⟩

theorem witness_DigestPortBytes : digestValid done = true ∧ digestValid State.reset = false := by decide

theorem witness_ResetValues : done.busy = false := by decide

theorem witness_ResetEdge : (resetting (running .finalizing 7)).port.rst = true := by decide

theorem witness_StepPreservesInvariants :
    State.reset.Inv ∧ (∃ t, step State.reset = .next t) ∧ (running .finalizing 23).Inv ∧
    (∃ t, step (running .finalizing 23) = .next t) ∧ (fed done [0x1000#16]).Inv :=
  ⟨⟨by decide, by decide, by decide⟩, step_total _, ⟨by decide, by decide, by decide⟩, step_total _,
    ⟨by decide, by decide, by decide⟩⟩

theorem witness_ErrorFlagsClearedOnlyByInitOrReset :
    (∃ t, step (fed { done with errSeq := true } [0x1000#16]) = .next t ∧ t.errSeq = false) ∧
    (∃ t, step (resetting { done with errIll := true }) = .next t ∧ t.errIll = false) :=
  ⟨⟨_, rfl, rfl⟩, ⟨_, rfl, rfl⟩⟩

theorem witness_ErrorFlagsSetExactly :
    (∃ t, step (fed done [0x3000#16]) = .next t ∧ t.errSeq = true) ∧ done.errSeq = false ∧
    (∃ t, step (fed done [0x3001#16]) = .next t ∧ t.errIll = true) ∧ done.errIll = false :=
  ⟨⟨_, rfl, rfl⟩, rfl, ⟨_, rfl, rfl⟩, rfl⟩

theorem witness_BusyChangesExactly :
    (∃ t, step (fed (atCursor 135) [0x2001#16]) = .next t ∧ t.busy = true) ∧ (atCursor 135).busy = false ∧
    (∃ t, step (running .ready 23) = .next t ∧ t.busy = false) ∧ (running .ready 23).busy = true :=
  ⟨⟨_, rfl, rfl⟩, rfl, ⟨_, rfl, rfl⟩, rfl⟩

theorem witness_DigestValidChangesExactly :
    (∃ t, step (running .finalizing 23) = .next t ∧ digestValid t = true) ∧
    digestValid (running .finalizing 23) = false ∧
    (∃ t, step (fed done [0x1000#16]) = .next t ∧ digestValid t = false) ∧ digestValid done = true :=
  ⟨⟨_, rfl, rfl⟩, rfl, ⟨_, rfl, rfl⟩, rfl⟩

theorem witness_DigestImmutable :
    (fed done [0x2000#16]).Inv ∧ (fed done [0x2000#16]).phase = .finalized ∧ (fed done [0x2000#16]).port.rst = false ∧
    ¬ (fed done [0x2000#16]).Accepts (encode .init) ∧ ∃ t, step (fed done [0x2000#16]) = .next t :=
  ⟨⟨by decide, by decide, by decide⟩, rfl, rfl, fun h => absurd h.2 (by decide), step_total _⟩

theorem witness_InitForgetsHistory : (atCursor 17).busy = false ∧ done.busy = false ∧ atCursor 17 ≠ done := by decide

theorem witness_NopsDropOut : (atCursor 17).busy = false := by decide

theorem witness_EdgesComposeSequentially :
    (fed (running .finalizing 22) [0x0000#16, 0x1000#16, 0x2061#16, 0x3000#16]).NoResetFor 4 := by
  unfold State.NoResetFor
  decide

theorem witness_HashGivesKeccak256 : done.busy = false := by decide

theorem witness_DigestEdgeOfEagerHost :
    done.busy = false ∧ 1 ≤ 185 ∧ 185 < digestEdge (List.replicate 136 0x00#8).length := by
  rw [List.length_replicate]
  decide

end Sys2Proof.Tests
end

section
/-! PROOFS. What `memWrite` leaves in every state byte (spec/00_scope.md R12), and the statement on `memWrite` and
`memRead` that follows from it. -/

namespace Sys2Proof.Machine

/-- Byte `a` after `memWrite`: its own eight bits of the value inside the range written, unchanged outside (R12). -/
theorem getByte_memWrite (A : Lanes) (addr n : Nat) (h : addr + n ≤ 200) (v : BitVec (8 * n)) (a : Fin 200) :
    getByte (memWrite A addr n h v) a =
      if addr ≤ a.val ∧ a.val < addr + n then v.extractLsb' (8 * (a.val - addr)) 8 else getByte A a := by
  induction n with
  | zero => rw [memWrite, if_neg (by omega)]
  | succ n ih =>
    rw [memWrite]
    by_cases hlast : a.val = addr + n
    · have ha : a = ⟨addr + n, by omega⟩ := Fin.ext hlast
      rw [if_pos (by omega), hlast, Nat.add_sub_cancel_left, ha, getByte_setByte_self]
    · rw [getByte_setByte_of_ne _ _ _ _ (fun e => hlast (congrArg Fin.val e)), ih]
      by_cases hin : addr ≤ a.val ∧ a.val < addr + n
      · rw [if_pos hin, if_pos (by omega)]
        -- the recursive call gets the value cut to its low `n` bytes, and byte `a` lies in them
        ext j hj
        have hlow : 8 * (a.val - addr) + j < 8 * n := by omega
        simp [hlow]
      · rw [if_neg hin, if_neg (by omega)]

/-- The byte `j` places into the range written. -/
theorem getByte_memWrite_add (A : Lanes) (addr n : Nat) (h : addr + n ≤ 200) (v : BitVec (8 * n)) (j : Nat)
    (hj : j < n) : getByte (memWrite A addr n h v) ⟨addr + j, by omega⟩ = v.extractLsb' (8 * j) 8 := by
  rw [getByte_memWrite, if_pos ⟨Nat.le_add_right addr j, Nat.add_lt_add_left hj addr⟩, Nat.add_sub_cancel_left]

/-- A byte outside the range written. -/
theorem getByte_memWrite_of_outside (A : Lanes) (addr n : Nat) (h : addr + n ≤ 200) (v : BitVec (8 * n))
    (a : Fin 200) (ha : a.val < addr ∨ addr + n ≤ a.val) : getByte (memWrite A addr n h v) a = getByte A a := by
  rw [getByte_memWrite, if_neg (by omega)]

/-- Reading back what was just written: bit `j` of the value read is bit `j % 8` of the byte at `addr + j / 8`. -/
theorem memRead_memWrite (A : Lanes) (addr n : Nat) (h : addr + n ≤ 200) (v : BitVec (8 * n)) :
    memRead (memWrite A addr n h v) addr n h = v := by
  ext j hj
  have hbit : j % 8 < 8 := Nat.mod_lt j (by omega)
  have hbyte : j / 8 < n := by omega
  rw [← BitVec.getLsbD_eq_getElem, getLsbD_memRead _ _ _ _ j hj, getByte_memWrite_add _ _ _ _ _ _ hbyte,
    BitVec.getLsbD_extractLsb', Nat.div_add_mod]
  simp [hbit, BitVec.getLsbD_eq_getElem hj]

/-- Settles O11: every byte after `memWrite` is known by induction on the size, and `memRead` reads those bytes. -/
theorem memWriteThenMemRead : Obligations.MemWriteThenMemRead := by
  intro A addr n h v
  exact ⟨memRead_memWrite A addr n h v, getByte_memWrite_of_outside A addr n h v⟩

end Sys2Proof.Machine
end

section
/-! PROOFS. Command words and their commands, and what one clock edge does, told by the command it accepts
(spec/10_state.md R31, spec/30_encoding.md R82, R83, spec/41_sponge.md R140). -/

namespace Sys2Proof

/-- Bits 15:8 of a word made of fields are OP and RSV (R80). -/
theorem CmdWord.extractLsb'_ofFields (op rsv : BitVec 4) (data : Byte) :
    (CmdWord.ofFields op rsv data).extractLsb' 8 8 = op ++ rsv := by
  rw [CmdWord.ofFields, BitVec.extractLsb'_append_eq_of_le (by omega), BitVec.extractLsb'_eq_self]

/-- DATA of a word made of fields (R80). -/
theorem CmdWord.data_ofFields (op rsv : BitVec 4) (data : Byte) :
    CmdWord.data (CmdWord.ofFields op rsv data) = data := by
  rw [CmdWord.data, CmdWord.ofFields, BitVec.extractLsb'_append_eq_of_add_le (by omega), BitVec.extractLsb'_eq_self]

/-- The word of a command decodes to that command (R82, R83). -/
@[simp] theorem decode_encode (i : Instr) : decode (encode i) = .ok i := by
  cases i with
  | nop => rfl
  | init => rfl
  | finalize => rfl
  | absorb b =>
    have hhigh : (encode (.absorb b)).extractLsb' 8 8 = 0x20#8 := CmdWord.extractLsb'_ofFields _ _ b
    have hnop : encode (.absorb b) ≠ 0x0000#16 := fun e => absurd (e ▸ hhigh) (by decide)
    have hinit : encode (.absorb b) ≠ 0x1000#16 := fun e => absurd (e ▸ hhigh) (by decide)
    have hdata : CmdWord.data (encode (.absorb b)) = b := CmdWord.data_ofFields _ _ b
    rw [decode, if_neg hnop, if_neg hinit, if_pos hhigh, hdata]

/-- No second word means the same command (R82, R83). -/
theorem encode_of_decode (w : CmdWord) (i : Instr) (h : decode w = .ok i) : encode i = w := by
  unfold decode at h
  split at h
  · cases h
    exact (‹w = 0x0000#16›).symm
  split at h
  · cases h
    exact (‹w = 0x1000#16›).symm
  split at h
  next hhigh =>
    cases h
    calc encode (.absorb (CmdWord.data w)) = 0x20#8 ++ w.extractLsb' 0 8 := rfl
      _ = w.extractLsb' 8 8 ++ w.extractLsb' 0 8 := by rw [hhigh]
      _ = w.extractLsb' 0 16 := BitVec.extractLsb'_append_extractLsb'_eq_extractLsb' rfl
      _ = w := BitVec.extractLsb'_eq_self
  split at h
  · cases h
    exact (‹w = 0x3000#16›).symm
  · cases h

/-- Two commands with the same word are the same command. -/
theorem encode_inj (i j : Instr) : encode i = encode j ↔ i = j := by
  refine ⟨fun h => ?_, congrArg encode⟩
  have hd : decode (encode i) = decode (encode j) := congrArg decode h
  simpa using hd

end Sys2Proof

namespace Sys2Proof.Machine

/-! ### Which word is accepted -/

/-- At most one word is accepted at an edge. -/
theorem State.Accepts.encode_iff {s : State} {i : Instr} (h : s.Accepts (encode i)) (j : Instr) :
    s.Accepts (encode j) ↔ i = j := by
  constructor
  · intro hj
    exact (encode_inj i j).1 (h.2.symm.trans hj.2)
  · rintro rfl
    exact h

/-- Where an illegal word is accepted no command is. -/
theorem State.Accepts.not_encode {s : State} {w : CmdWord} {e : IllegalWord} (h : s.Accepts w)
    (he : decode w = .error e) (j : Instr) : ¬ s.Accepts (encode j) := by
  intro hj
  have hw : w = encode j := h.2.symm.trans hj.2
  rw [hw, decode_encode] at he
  cases he

/-- No word is accepted while the PE runs (R31, R32). -/
theorem State.not_accepts_of_busy {s : State} (h : s.busy = true) (w : CmdWord) : ¬ s.Accepts w := by
  simp [State.accepts_iff, h]

/-- No word is accepted where none is presented (R31). -/
theorem State.not_accepts_of_no_word {s : State} (h : s.port.cmdValid = false) (w : CmdWord) : ¬ s.Accepts w := by
  simp [State.accepts_iff, h]

/-! ### One clock edge -/

/-- A reset edge (R140, R200). -/
theorem step_of_rst {s : State} (h : s.port.rst = true) : step s = .next s.nextCycle.resetRegs := by
  rw [step, edge, if_pos h]

/-- A round edge (R140, R114). -/
theorem step_of_busy {s : State} (hr : s.port.rst = false) (hb : s.busy = true) :
    step s = .next s.nextCycle.peRound := by
  simp [step, edge, hr, hb]

/-- An accept edge (R140). -/
theorem step_of_accepts {s : State} {w : CmdWord} (h : s.Accepts w) : step s = acceptWord w s.nextCycle := by
  obtain ⟨hr, hb, hv, hw⟩ := (s.accepts_iff w).1 h
  simp [step, edge, hr, hb, hv, hw]

/-- The accept edge of a command's word runs that command (R83, R140). -/
theorem step_of_accepts_encode {s : State} {i : Instr} (h : s.Accepts (encode i)) : step s = exec i s.nextCycle := by
  rw [step_of_accepts h, acceptWord, decode_encode]

/-- R140's alternatives, with the accepted word told by what it decodes to. -/
theorem step_cases_by_command (s t : State) (h : step s = .next t) :
    (s.port.rst = true ∧ t = s.nextCycle.resetRegs) ∨
    (s.port.rst = false ∧ s.busy = true ∧ t = s.nextCycle.peRound) ∨
    (∃ i, s.Accepts (encode i) ∧ exec i s.nextCycle = .next t) ∨
    (∃ w e, s.Accepts w ∧ decode w = .error e ∧ t = s.nextCycle.raise (.illegalCommand e.word)) ∨
    (s.port.rst = false ∧ s.busy = false ∧ s.port.cmdValid = false ∧ t = s.nextCycle) := by
  rcases step_cases s t h with hreset | hround | ⟨hr, hb, hv, hw⟩ | hidle
  · exact .inl hreset
  · exact .inr (.inl hround)
  · have ha : s.Accepts s.port.cmdWord := (s.accepts_iff _).2 ⟨hr, hb, hv, rfl⟩
    rcases acceptWord_cases _ _ _ hw with ⟨i, hi, hx⟩ | ⟨e, he, ht⟩
    · exact .inr (.inr (.inl ⟨i, encode_of_decode _ i hi ▸ ha, hx⟩))
    · exact .inr (.inr (.inr (.inl ⟨_, e, ha, he, ht⟩)))
  · exact .inr (.inr (.inr (.inr hidle)))

end Sys2Proof.Machine
end

section
/-! PROOFS. The invariants of R39: reset meets them, and every step keeps them (spec/10_state.md R39). -/

namespace Sys2Proof.Machine

/-- The invariants read `busy`, `round` and `phase` only. -/
theorem State.Inv.congr {s t : State} (hs : s.Inv) (hb : t.busy = s.busy) (hr : t.round = s.round)
    (hp : t.phase = s.phase) : t.Inv := by
  obtain ⟨hidle, hfin, hdone⟩ := hs
  exact ⟨by rwa [hb, hr], by rwa [hb, hp], by rwa [hb, hp]⟩

/-- Phase READY at round 0, where INIT and reset lead, meets the invariants. -/
theorem State.inv_of_ready {s : State} (hp : s.phase = .ready) (hr : s.round = 0) : s.Inv :=
  ⟨fun _ => hr, by simp [hp], by simp [hp]⟩

/-- A PE running outside phase FINALIZED meets the invariants. -/
theorem State.inv_of_busy {s : State} (hb : s.busy = true) (hp : s.phase ≠ .finalized) : s.Inv :=
  ⟨by simp [hb], fun _ => hb, fun h => absurd h hp⟩

/-- The end of a permutation leaves no FINALIZING (R114). -/
theorem finishPhase_ne_finalizing (p : Phase) : finishPhase p ≠ .finalizing := by
  cases p <;> decide

/-- A round step keeps the invariants (R114). -/
theorem State.Inv.after_peRound {s : State} (hs : s.Inv) (hb : s.busy = true) : s.peRound.Inv := by
  have hp : s.phase ≠ .finalized := fun h => by simpa [hb] using hs.finalizedIdle h
  rcases s.peRound_cases with ⟨_, ht⟩ | ⟨_, ht⟩ <;> rw [ht]
  · exact ⟨fun _ => rfl, fun h => absurd h (finishPhase_ne_finalizing _), fun _ => rfl⟩
  · exact inv_of_busy hb hp

/-- ABSORB's cursor update keeps the invariants outside phase FINALIZED, whether or not it starts the PE (R143). -/
theorem State.Inv.after_advanceCursor {s : State} (hs : s.Inv) (hp : s.phase ≠ .finalized) : s.advanceCursor.Inv := by
  rcases s.advanceCursor_cases with ⟨_, ht⟩ | ⟨_, ht⟩ <;> rw [ht]
  · exact inv_of_busy rfl hp
  · exact hs.congr rfl rfl rfl

/-- Every command keeps the invariants (R141 to R144, R146). -/
theorem State.Inv.after_exec {i : Instr} {s t : State} (hs : s.Inv) (h : exec i s = .next t) : t.Inv := by
  rcases exec_cases i s t h with ⟨_, rfl⟩ | ⟨_, rfl⟩ | ⟨_, _, rfl⟩ | ⟨_, _, rfl⟩ | ⟨b, _, hp, rfl⟩ | ⟨_, _, rfl⟩
  · exact hs
  · exact inv_of_ready rfl rfl
  · exact hs.congr rfl rfl rfl
  · exact hs.congr rfl rfl rfl
  · have hx : (s.xorState (cursorAddr s) b).Inv := hs.congr rfl rfl rfl
    exact hx.after_advanceCursor hp
  · exact inv_of_busy rfl (by simp)

/-- Every step keeps the invariants. -/
theorem State.Inv.after_step {s t : State} (hs : s.Inv) (h : step s = .next t) : t.Inv := by
  have hn : s.nextCycle.Inv := hs.congr rfl rfl rfl
  rcases step_cases_by_command s t h with ⟨_, rfl⟩ | ⟨_, hb, rfl⟩ | ⟨i, _, hx⟩ | ⟨w, e, _, _, rfl⟩ | ⟨_, _, _, rfl⟩
  · exact inv_of_ready rfl rfl
  · exact hn.after_peRound hb
  · exact hn.after_exec hx
  · exact hn.congr rfl rfl rfl
  · exact hn

/-- Settles O47: a reset, a round step, each command, an illegal word and an idle edge each keep the invariants. -/
theorem stepPreservesInvariants : Obligations.StepPreservesInvariants := fun _ _ hs h => hs.after_step h

/-- Settles O46: reset leaves phase READY and round 0. -/
theorem resetMeetsInvariants : Obligations.ResetMeetsInvariants := fun _ => State.inv_of_ready rfl rfl

end Sys2Proof.Machine
end

section
/-! PROOFS. What a command leaves as it was (spec/20_memory.md R64, R66, spec/10_state.md R23, R24, R27, R28). -/

namespace Sys2Proof.Machine

/-- What NOP, ABSORB and FINALIZE do (R141, R143, R144, R146): nothing, the flag of misuse, or their write. -/
theorem exec_cases_of_ne_init {i : Instr} {s t : State} (h : exec i s = .next t) (hi : i ≠ .init) :
    (i = .nop ∧ t = s) ∨ (s.phase = .finalized ∧ t = s.raise .seqError) ∨
    (∃ b, i = .absorb b ∧ s.phase ≠ .finalized ∧ t = (s.xorState (cursorAddr s) b).advanceCursor) ∨
    (i = .finalize ∧ s.phase ≠ .finalized ∧ t = (s.pad.setPhase .finalizing).startPE) := by
  rcases exec_cases i s t h with hnop | ⟨hinit, _⟩ | ⟨_, hmisuse⟩ | ⟨_, hmisuse⟩ | habsorb | hfinalize
  · exact .inl hnop
  · exact absurd hinit hi
  · exact .inr (.inl hmisuse)
  · exact .inr (.inl hmisuse)
  · exact .inr (.inr (.inl habsorb))
  · exact .inr (.inr (.inr hfinalize))

/-- No command read-modify-writes a capacity byte (R64). -/
theorem not_mem_xorAddrs_of_capacity {a : Fin 200} (h : regionOf a = .capacity) (i : Instr) (s : State) :
    a ∉ xorAddrs i s := by
  have hrate : ∀ c : Fin 136, a ≠ rateAddr c := by
    rintro c rfl
    have hc : (rateAddr c).val ≤ 135 := Nat.le_of_lt_succ c.isLt
    unfold regionOf at h
    split_ifs at h
    omega
  cases i <;> simp [xorAddrs, cursorAddr, endMarkerAddr, hrate]

@[simp] theorem State.pad_cursor (s : State) : s.pad.cursor = s.cursor := rfl
@[simp] theorem State.pad_errSeq (s : State) : s.pad.errSeq = s.errSeq := rfl
@[simp] theorem State.pad_errIll (s : State) : s.pad.errIll = s.errIll := rfl
@[simp] theorem State.pad_drive (s : State) : s.pad.drive = s.drive := rfl

section Frame

variable {i : Instr} {s t : State} (h : exec i s = .next t) (hi : i ≠ .init)
include h hi

/-- A byte that the command does not read-modify-write keeps its value (R66). -/
theorem exec_getByte_of_not_mem {a : Fin 200} (ha : a ∉ xorAddrs i s) : getByte t.lanes a = getByte s.lanes a := by
  rcases exec_cases_of_ne_init h hi with ⟨_, rfl⟩ | ⟨_, rfl⟩ | ⟨b, rfl, _, rfl⟩ | ⟨rfl, _, rfl⟩
  · rfl
  · rfl
  · have hc : a ≠ cursorAddr s := by simpa [xorAddrs] using ha
    simp [getByte_xorByte, hc]
  · have hc : a ≠ cursorAddr s ∧ a ≠ endMarkerAddr := by simpa [xorAddrs] using ha
    simp [State.getByte_pad, hc]

/-- `err_ill` is kept (R28). -/
theorem exec_keeps_errIll : t.errIll = s.errIll := by
  rcases exec_cases_of_ne_init h hi with ⟨_, rfl⟩ | ⟨_, rfl⟩ | ⟨b, _, _, rfl⟩ | ⟨_, _, rfl⟩ <;> simp

/-- `err_seq` is kept, but for misuse, which sets it (R27, R146). -/
theorem exec_keeps_or_sets_errSeq : t.errSeq = s.errSeq ∨ s.phase = .finalized ∧ t.errSeq = true := by
  rcases exec_cases_of_ne_init h hi with ⟨_, rfl⟩ | ⟨hp, rfl⟩ | ⟨b, _, _, rfl⟩ | ⟨_, _, rfl⟩
  · exact .inl rfl
  · exact .inr ⟨hp, rfl⟩
  · exact .inl (by simp)
  · exact .inl rfl

/-- Only FINALIZE writes the phase (R24). -/
theorem exec_keeps_phase (hf : i ≠ .finalize) : t.phase = s.phase := by
  rcases exec_cases_of_ne_init h hi with ⟨_, rfl⟩ | ⟨_, rfl⟩ | ⟨b, _, _, rfl⟩ | ⟨hfinalize, _⟩
  · rfl
  · rfl
  · simp
  · exact absurd hfinalize hf

/-- Only ABSORB writes the cursor (R23). -/
theorem exec_keeps_cursor (ha : ∀ b, i ≠ .absorb b) : t.cursor = s.cursor := by
  rcases exec_cases_of_ne_init h hi with ⟨_, rfl⟩ | ⟨_, rfl⟩ | ⟨b, habsorb, _⟩ | ⟨_, _, rfl⟩
  · rfl
  · rfl
  · exact absurd habsorb (ha b)
  · rfl

/-- The host's `drive` is kept. -/
theorem exec_keeps_drive : t.drive = s.drive := by
  rcases exec_cases_of_ne_init h hi with ⟨_, rfl⟩ | ⟨_, rfl⟩ | ⟨b, _, _, rfl⟩ | ⟨_, _, rfl⟩ <;> simp

/-- In phase FINALIZED everything is kept but `err_seq` (R141, R146). -/
theorem exec_keeps_finalized (hp : s.phase = .finalized) :
    t.lanes = s.lanes ∧ t.cursor = s.cursor ∧ t.phase = s.phase ∧ t.busy = s.busy := by
  rcases exec_cases_of_ne_init h hi with ⟨_, rfl⟩ | ⟨_, rfl⟩ | ⟨b, _, hn, _⟩ | ⟨_, hn, _⟩
  · exact ⟨rfl, rfl, rfl, rfl⟩
  · exact ⟨rfl, rfl, rfl, rfl⟩
  · exact absurd hp hn
  · exact absurd hp hn

end Frame

/-- Settles O37: the frame of each field, and no capacity byte among those a command read-modify-writes. -/
theorem commandFrame : Obligations.CommandFrame := by
  intro i s t hi h
  refine ⟨fun a ha => exec_getByte_of_not_mem h hi ha,
    fun a ha => exec_getByte_of_not_mem h hi (not_mem_xorAddrs_of_capacity ha i s),
    exec_keeps_errIll h hi, exec_keeps_drive h hi, fun hp => ?_, exec_keeps_phase h hi, exec_keeps_cursor h hi,
    exec_keeps_finalized h hi⟩
  rcases exec_keeps_or_sets_errSeq h hi with hkept | ⟨hfin, _⟩
  · exact hkept
  · exact absurd hfin hp

end Sys2Proof.Machine
end

section
/-! PROOFS. The output ports (spec/10_state.md R31 to R35). -/

namespace Sys2Proof.Machine

/-- A status bit is its register. -/
@[simp] theorem getElem_bit_zero (b : Bool) : (bit b)[0] = b := by
  simp [bit]

/-- The bits of the status word that show one register each (R33). -/
theorem statusO_bits (s : State) :
    (statusO s).getLsbD 0 = s.busy ∧ (statusO s).getLsbD 3 = s.errSeq ∧ (statusO s).getLsbD 4 = s.errIll ∧
      (statusO s).getLsbD 5 = digestValid s := by
  unfold statusO
  refine ⟨?_, ?_, ?_, ?_⟩ <;> repeat rw [BitVec.getLsbD_append]
  all_goals simp

/-- Bits 2:1 of the status word are the phase's code (R24, R33). -/
theorem statusO_phase (s : State) : (statusO s).extractLsb' 1 2 = phaseCode s.phase := by
  rw [statusO, BitVec.extractLsb'_append_eq_of_le (by omega), BitVec.extractLsb'_append_eq_of_add_le (by omega),
    BitVec.extractLsb'_eq_self]

/-- Bits 7:6 of the status word are reserved and 0 (R33). -/
theorem statusO_reserved (s : State) : (statusO s).extractLsb' 6 2 = 0#2 := by
  unfold statusO
  -- the five fields below the reserved bits, then the cursor above them
  iterate 5 rw [BitVec.extractLsb'_append_eq_of_le (by omega)]
  rw [BitVec.extractLsb'_append_eq_of_add_le (by omega), BitVec.extractLsb'_eq_self]

/-- The high byte of the status word is the cursor (R33). -/
theorem statusO_cursor (s : State) : (statusO s).extractLsb' 8 8 = BitVec.ofNat 8 s.cursor.val := by
  unfold statusO
  -- the six fields below the cursor
  iterate 6 rw [BitVec.extractLsb'_append_eq_of_le (by omega)]
  exact BitVec.extractLsb'_eq_self

/-- The status word after reset (R33, R42). -/
theorem statusO_reset : statusO State.reset = 0x0000#16 := by decide

/-- Settles O41: the word's fields one by one, and the cursor's number fits its eight bits. -/
theorem statusWordFields : Obligations.StatusWordFields := by
  refine ⟨fun s => ?_, rfl, rfl, rfl, statusO_reset⟩
  obtain ⟨hbusy, hseq, hill, hvalid⟩ := statusO_bits s
  have hcursor : ((statusO s).extractLsb' 8 8).toNat = s.cursor.val := by
    rw [statusO_cursor, BitVec.toNat_ofNat]
    omega
  exact ⟨hbusy, statusO_phase s, hseq, hill, hvalid, statusO_reserved s, hcursor⟩

/-- `digest_valid` is phase FINALIZED (R34). -/
@[simp] theorem digestValid_iff (s : State) : digestValid s = true ↔ s.phase = .finalized := by
  simp [digestValid]

/-- Bit `n` of the digest window is bit `n` of the state: bit `n % 64` of lane `n / 64` (R35, R61). -/
theorem getLsbD_digestWindow (A : Lanes) (n : Nat) (hn : n < 256) :
    (digestWindow A).getLsbD n = (A[n / 64]'(by omega)).getLsbD (n % 64) := by
  have hlane : n / 64 = 0 ∨ n / 64 = 1 ∨ n / 64 = 2 ∨ n / 64 = 3 := by omega
  have hbit : n % 64 = n - 64 * (n / 64) := by omega
  unfold digestWindow
  iterate 3 rw [BitVec.getLsbD_append]
  rcases hlane with h | h | h | h <;>
    simp (disch := omega) only [hbit, h, if_pos, if_neg, Nat.sub_sub, Nat.mul_zero, Nat.sub_zero]

/-- Byte `j` of the digest window is state byte `j` (R35). -/
theorem extractLsb'_digestWindow (A : Lanes) (j : Fin 32) :
    (digestWindow A).extractLsb' (8 * j.val) 8 = getByte A ⟨j.val, by omega⟩ := by
  apply BitVec.eq_of_getLsbD_eq
  intro i hi
  have hlane : (8 * j.val + i) / 64 = j.val / 8 := by omega
  have hbit : (8 * j.val + i) % 64 = 8 * (j.val % 8) + i := by omega
  rw [BitVec.getLsbD_extractLsb', getLsbD_digestWindow A _ (by omega)]
  simp [getByte, laneOf, byteShift, hlane, hbit]

/-- Settles O42: a byte of the window is eight bits of the lane that holds it. -/
theorem digestPortBytes : Obligations.DigestPortBytes := by
  intro s
  refine ⟨digestValid_iff s, fun hv => ?_, fun hv => ?_⟩
  · have hd : digestO s = digestWindow s.lanes := if_pos hv
    exact ⟨hd, fun j => by rw [hd, extractLsb'_digestWindow]⟩
  · simp [digestO, hv]

/-- Settles O28: both equivalences are the ports' equations (R31, R32). -/
theorem readyAndAccepted : Obligations.ReadyAndAccepted := by
  intro s p
  constructor
  · simp [cmdReady]
  · simp [accepts, and_assoc]

end Sys2Proof.Machine
end

section
/-! PROOFS. When the error flags, BUSY and DV change at an edge (spec/10_state.md R27, R28, R37,
spec/40_permutation.md R115, spec/60_exceptions.md R186). -/

namespace Sys2Proof.Machine

/-- At an edge that is neither a reset nor INIT's accept edge, a flag that is set stays set (R186). -/
theorem step_keeps_flags {s t : State} (h : step s = .next t) (hr : s.port.rst = false)
    (ha : ¬ s.Accepts (encode .init)) :
    (s.errSeq = true → t.errSeq = true) ∧ (s.errIll = true → t.errIll = true) := by
  rcases step_cases_by_command s t h with ⟨hrst, _⟩ | ⟨_, _, rfl⟩ | ⟨i, hacc, hx⟩ | ⟨w, e, _, _, rfl⟩ | ⟨_, _, _, rfl⟩
  · simp [hr] at hrst
  · simp
  · have hi : i ≠ .init := fun e => ha (e ▸ hacc)
    refine ⟨fun hs => ?_, fun hs => (exec_keeps_errIll hx hi).trans hs⟩
    rcases exec_keeps_or_sets_errSeq hx hi with hkept | ⟨_, hset⟩
    · exact hkept.trans hs
    · exact hset
  · simp
  · simp

/-- Settles O48: at every other edge a set flag stays set. -/
theorem errorFlagsClearedOnlyByInitOrReset : Obligations.ErrorFlagsClearedOnlyByInitOrReset := by
  intro s t h hcleared
  by_contra hno
  obtain ⟨hr, ha⟩ := not_or.1 hno
  obtain ⟨hseq, hill⟩ := step_keeps_flags h (Bool.eq_false_of_not_eq_true hr) ha
  rcases hcleared with ⟨hs, ht⟩ | ⟨hs, ht⟩
  · simp [hseq hs] at ht
  · simp [hill hs] at ht

/-- A round step ends the permutation at round 23 only (R114). -/
theorem State.peRound_busy (s : State) : s.peRound.busy = true ↔ s.busy = true ∧ s.round.val ≠ 23 := by
  have hval : s.round = 23 ↔ s.round.val = 23 := Fin.ext_iff
  rcases s.peRound_cases with ⟨hr, ht⟩ | ⟨hr, ht⟩ <;> simp [ht, ← hval, hr]

/-- A round step leaves phase FINALIZED as it is, and enters it at the end of the final permutation only (R114). -/
theorem State.peRound_finalized (s : State) :
    s.peRound.phase = .finalized ↔ s.phase = .finalized ∨ s.round.val = 23 ∧ s.phase = .finalizing := by
  have hval : s.round = 23 ↔ s.round.val = 23 := Fin.ext_iff
  rcases s.peRound_cases with ⟨hr, ht⟩ | ⟨hr, ht⟩
  · rw [ht]
    cases hp : s.phase <;> simp [finishPhase, hr]
  · simp [ht, ← hval, hr]

/-- ABSORB's cursor update starts the PE at offset 135 only (R143, R115). -/
theorem State.advanceCursor_busy (s : State) : s.advanceCursor.busy = true ↔ s.busy = true ∨ s.cursor.val = 135 := by
  rcases s.advanceCursor_cases with ⟨hc, ht⟩ | ⟨hc, ht⟩
  · have hval : s.cursor.val = 135 := congrArg Fin.val hc
    simp [ht, hval]
  · have hval : s.cursor.val ≠ 135 := fun e => hc (Fin.ext e)
    simp [ht, hval]

/-- Which commands start an idle PE (R115). -/
theorem exec_busy_iff {i : Instr} {s t : State} (h : exec i s = .next t) (hb : s.busy = false) :
    t.busy = true ↔ s.phase ≠ .finalized ∧ ((∃ b, i = .absorb b) ∧ s.cursor.val = 135 ∨ i = .finalize) := by
  rcases exec_cases i s t h with ⟨rfl, rfl⟩ | ⟨rfl, rfl⟩ | ⟨_, hp, rfl⟩ | ⟨_, hp, rfl⟩ | ⟨b, rfl, hp, rfl⟩ |
    ⟨rfl, hp, rfl⟩
  · simp [hb]
  · simp [hb]
  · simp [hb, hp]
  · simp [hb, hp]
  · simp [State.advanceCursor_busy, hb, hp]
  · simp [hp]

/-- A command ends in phase FINALIZED exactly where it began there and is not INIT (R142, R144, R146). -/
theorem exec_finalized_iff {i : Instr} {s t : State} (h : exec i s = .next t) :
    t.phase = .finalized ↔ s.phase = .finalized ∧ i ≠ .init := by
  rcases exec_cases i s t h with ⟨rfl, rfl⟩ | ⟨rfl, rfl⟩ | ⟨⟨b, rfl⟩, hp, rfl⟩ | ⟨rfl, hp, rfl⟩ | ⟨b, rfl, hp, rfl⟩ |
    ⟨rfl, hp, rfl⟩
  · simp
  · simp
  · simp
  · simp
  · simp
  · simp [hp]

/-- When the PE runs after an edge: a permutation went on, or an accepted command started one (R37, R115). -/
theorem step_busy_iff {s t : State} (h : step s = .next t) :
    t.busy = true ↔ s.port.rst = false ∧ (s.busy = true ∧ s.round.val ≠ 23 ∨ s.phase ≠ .finalized ∧
      ((∃ b, s.Accepts (encode (.absorb b))) ∧ s.cursor.val = 135 ∨ s.Accepts (encode .finalize))) := by
  rcases step_cases_by_command s t h with ⟨hr, rfl⟩ | ⟨hr, hb, rfl⟩ | ⟨i, ha, hx⟩ | ⟨w, e, ha, he, rfl⟩ |
    ⟨hr, hb, hv, rfl⟩
  · simp [hr]
  · simp [State.peRound_busy, State.not_accepts_of_busy hb, hr, hb]
  · obtain ⟨hr, hb, _⟩ := (s.accepts_iff _).1 ha
    simp [exec_busy_iff hx hb, ha.encode_iff, hr, hb]
  · obtain ⟨_, hb, _⟩ := (s.accepts_iff _).1 ha
    simp [ha.not_encode he, hb]
  · simp [State.not_accepts_of_no_word hv, hb]

/-- When the digest is valid after an edge: the final permutation ended, or it was valid and stays so (R37). -/
theorem step_finalized_iff {s t : State} (h : step s = .next t) :
    t.phase = .finalized ↔ s.port.rst = false ∧ (s.busy = true ∧ s.round.val = 23 ∧ s.phase = .finalizing ∨
      s.phase = .finalized ∧ ¬ s.Accepts (encode .init)) := by
  rcases step_cases_by_command s t h with ⟨hr, rfl⟩ | ⟨hr, hb, rfl⟩ | ⟨i, ha, hx⟩ | ⟨w, e, ha, he, rfl⟩ |
    ⟨hr, hb, hv, rfl⟩
  · simp [hr]
  · simp [State.peRound_finalized, State.not_accepts_of_busy hb, hr, hb, or_comm]
  · obtain ⟨hr, hb, _⟩ := (s.accepts_iff _).1 ha
    simp [exec_finalized_iff hx, ha.encode_iff, hr, hb]
  · obtain ⟨hr, hb, _⟩ := (s.accepts_iff _).1 ha
    simp [ha.not_encode he, hr, hb]
  · simp [State.not_accepts_of_no_word hv, hr, hb]

/-- Settles O50: both directions are read off when the PE runs after an edge. -/
theorem busyChangesExactly : Obligations.BusyChangesExactly := by
  intro s t h
  refine ⟨fun hb => ?_, fun hb => ?_⟩
  · have hr : ∀ w, s.Accepts w → s.port.rst = false := fun w ha => ((s.accepts_iff w).1 ha).1
    rw [step_busy_iff h]
    simp only [hb, Bool.false_eq_true, false_and, false_or, and_iff_right_iff_imp]
    rintro ⟨_, ⟨⟨b, ha⟩, _⟩ | ha⟩ <;> exact hr _ ha
  · rw [← Bool.not_eq_true, step_busy_iff h]
    simp only [hb, State.not_accepts_of_busy hb, true_and, exists_false, false_and, or_self, and_false, or_false]
    rw [not_and_or, Bool.not_eq_false, ne_eq, not_not]

/-- Settles O51: both directions are read off when the digest is valid after an edge. -/
theorem digestValidChangesExactly : Obligations.DigestValidChangesExactly := by
  intro s t h
  refine ⟨fun hv => ?_, fun hv => ?_⟩
  · have hp : s.phase ≠ .finalized := fun hp => by simp [(digestValid_iff s).2 hp] at hv
    simp [step_finalized_iff h, hp]
  · have hp : s.phase = .finalized := (digestValid_iff s).1 hv
    rw [← Bool.not_eq_true, digestValid_iff, step_finalized_iff h, not_and_or, Bool.not_eq_false]
    simp [hp]

end Sys2Proof.Machine
end

section
/-! PROOFS. Single edges: an accepted command, a busy edge, a reset edge, and the registers that reset and INIT leave
(spec/10_state.md R31, R42, R43, spec/41_sponge.md R142, spec/70_reset_and_hazards.md R203, R211). -/

namespace Sys2Proof.Machine

/-- Settles O26: the accepted word decodes to its command again. -/
theorem stepRunsDecodedCommand : Obligations.StepRunsDecodedCommand := fun _ _ _ ha => step_of_accepts_encode ha

/-- An edge that accepts no word adds none to the accepted words (R31). -/
theorem acceptedWords_one_of_not_accepts {s : State} (h : accepts s.port s = false) : acceptedWords 1 s = [] := by
  obtain ⟨t, ht⟩ := step_total s
  simp [acceptedWords, h, ht]

/-- Where the PE runs, a step reads `rst` of the present cycle's inputs and nothing else of them (R140, R211). -/
theorem step_of_busy_withDrive (s : State) (p : PortIn) (ds : List PortIn) (hb : s.busy = true) :
    step { s with drive := p :: ds } =
      .next (if p.rst then { State.reset with drive := ds } else ({ s with drive := ds } : State).peRound) := by
  cases hr : p.rst with
  | true => exact step_of_rst hr
  | false => exact step_of_busy hr hb

/-- Settles O29: a busy edge reads `rst` only, and the PE accepts nothing while it runs. -/
theorem busyIgnoresCommandPort : Obligations.BusyIgnoresCommandPort := by
  intro s p q ds hb hpq
  constructor
  · rw [step_of_busy_withDrive s p ds hb, step_of_busy_withDrive s q ds hb, hpq]
  · apply acceptedWords_one_of_not_accepts
    simp [accepts, cmdReady, hb]

/-- Settles O45: the first reset edge writes every register, so nothing of the power-on values is left. -/
theorem powerOnThenReset : Obligations.PowerOnThenReset := fun _ => step_of_rst rfl

/-- INIT from an idle state leaves the registers of reset (R142, R42): the one register it does not write is `busy`. -/
theorem execInit_of_idle (s : State) (hb : s.busy = false) :
    execInit s = .next { State.reset with drive := s.drive } := by
  simp [execInit, State.clearRegs, State.reset, hb]

/-- Settles O43: the registers and outputs of the reset state, and INIT's outcome from an idle state. -/
theorem resetValues : Obligations.ResetValues :=
  ⟨rfl, getByte_zeroLanes, rfl, rfl, rfl, rfl, rfl, rfl, statusO_reset, rfl, rfl, rfl, rfl, execInit_of_idle⟩

end Sys2Proof.Machine
end

section
/-! PROOFS. The clocked core as a sequential composition of the words it accepts (spec/20_memory.md R70,
spec/40_permutation.md R116, spec/41_sponge.md R140, R149). -/

namespace Sys2Proof.Machine

/-- Edges in a row never stop the machine (R180, R185). -/
theorem runEdges_total (n : Nat) (s : State) : ∃ t, runEdges n s = .next t := by
  induction n with
  | zero => exact ⟨s, rfl⟩
  | succ n ih =>
    obtain ⟨t, ht⟩ := ih
    rw [runEdges_succ n s t ht]
    exact step_total t

/-- The words accepted in `n + 1` edges are those of the first edge and then those of the `n` edges after it. -/
theorem acceptedWords_succ {s t : State} (h : step s = .next t) (n : Nat) :
    acceptedWords (n + 1) s = acceptedWords 1 s ++ acceptedWords n t := by
  simp only [acceptedWords, h]
  split <;> rfl

/-- An edge that accepts `w` has `w` as its accepted word (R31). -/
theorem acceptedWords_one_of_accepts {s : State} {w : CmdWord} (h : s.Accepts w) : acceptedWords 1 s = [w] := by
  obtain ⟨hacc, hw⟩ := h
  obtain ⟨t, ht⟩ := step_total s
  simp [acceptedWords, hacc, hw, ht]

/-- Settling after the host moved on. -/
theorem State.settle_nextCycle (s : State) : s.nextCycle.settle = { s.settle with drive := s.drive.tail } :=
  s.settle_withDrive s.drive.tail

/-- One edge without a reset, seen with the running permutation finished: a round edge and an idle one carry out no
word, an accept edge carries out its word. -/
theorem step_settle {s t u : State} (h : step s = .next t) (hr : s.port.rst = false)
    (hu : s.settle.runWords (acceptedWords 1 s) = .next u) : t.settle = { u with drive := s.drive.tail } := by
  rcases step_cases s t h with ⟨hrst, _⟩ | ⟨_, hb, rfl⟩ | ⟨_, hb, hv, hx⟩ | ⟨_, hb, hv, rfl⟩
  · simp [hr] at hrst
  · rw [acceptedWords_one_of_not_accepts (by simp [accepts, cmdReady, hb])] at hu
    cases hu
    exact (State.settle_peRound s.nextCycle hb).trans s.settle_nextCycle
  · have ha : s.Accepts s.port.cmdWord := (s.accepts_iff _).2 ⟨hr, hb, hv, rfl⟩
    obtain ⟨v, hw⟩ := acceptWord_total s.port.cmdWord s
    have ht : acceptWord s.port.cmdWord s.nextCycle = .next { v with drive := s.drive.tail } :=
      acceptWord_withDrive _ _ _ _ hw
    cases hx.symm.trans ht
    rw [acceptedWords_one_of_accepts ha, s.settle_of_idle hb] at hu
    simp only [State.runWords, State.runWord, hw] at hu
    cases hu
    exact v.settle_withDrive s.drive.tail
  · rw [acceptedWords_one_of_not_accepts (by simp [accepts, hv])] at hu
    cases hu
    exact s.settle_nextCycle

/-- Edges without a reset, seen with the running permutation finished, carry out the accepted words one after the other:
the words of the first edge, then those of the edges after it. -/
theorem runEdges_settle (n : Nat) {s t u : State} (hn : s.NoResetFor n) (ht : runEdges n s = .next t)
    (hu : s.settle.runWords (acceptedWords n s) = .next u) : t.settle = { u with drive := s.drive.drop n } := by
  induction n generalizing s u with
  | zero =>
    cases ht
    cases hu
    exact t.settle_withDrive t.drive
  | succ n ih =>
    obtain ⟨v, hv⟩ := step_total s
    obtain ⟨x, hx⟩ := State.runWords_total (acceptedWords 1 s) s.settle
    have hfirst : v.settle = { x with drive := s.drive.tail } := step_settle hv hn.port hx
    have hdrive : v.drive = s.drive.tail := step_drive s v hv
    rw [acceptedWords_succ hv, State.runWords_append _ _ _ _ hx] at hu
    have hlater : v.settle.runWords (acceptedWords n v) = .next { u with drive := s.drive.tail } :=
      hfirst ▸ State.runWords_withDrive _ _ x u hu
    rw [runEdges, hv] at ht
    rw [ih (hn.tail s v n hdrive) ht hlater, hdrive, List.drop_tail]

/-- Settles O55: by induction on the number of edges, each of which carries out the word it accepts. -/
theorem edgesComposeSequentially : Obligations.EdgesComposeSequentially := by
  intro n s hn
  obtain ⟨t, ht⟩ := runEdges_total n s
  obtain ⟨u, hu⟩ := State.runWords_total (acceptedWords n s) s.settle
  exact ⟨t, u, ht, hu, runEdges_settle n hn ht hu⟩

end Sys2Proof.Machine
end

section
/-! PROOFS. The lane, byte and bit views of the state agree, and what a byte write changes in them
(spec/20_memory.md R61, R62). -/

namespace Sys2Proof.Machine

/-- A lane is `MemRead` of its eight bytes (R61). -/
theorem lane_eq_memRead (A : Lanes) (k : Fin 25) : A[k] = memRead A (8 * k.val) 8 (by omega) := by
  apply BitVec.eq_of_getLsbD_eq
  intro j hj
  rw [getLsbD_lane A k j hj, getLsbD_memRead A _ _ _ j hj]

/-- Byte `j` of lane `k` is state byte `8k + j` (R61). -/
theorem extractLsb'_lane (A : Lanes) (k : Fin 25) (j : Fin 8) :
    (A[k]).extractLsb' (8 * j.val) 8 = getByte A ⟨8 * k.val + j.val, by omega⟩ := by
  have hlane : laneOf ⟨8 * k.val + j.val, by omega⟩ = k := Fin.ext (by simp only [laneOf]; omega)
  have hshift : byteShift ⟨8 * k.val + j.val, by omega⟩ = 8 * j.val := by simp only [byteShift]; omega
  simp only [getByte, hlane, hshift]

/-- Bit `n` of the state is bit `n % 8` of byte `n / 8` (R61). -/
theorem stateBit_eq_getLsbD_getByte (A : Lanes) (n : Fin 1600) :
    stateBit A n = (getByte A ⟨n.val / 8, by omega⟩).getLsbD (n.val % 8) := by
  have hbyte : 8 * (n.val / 64) + n.val % 64 / 8 = n.val / 8 := by omega
  have hbit : n.val % 64 % 8 = n.val % 8 := by omega
  have hlane := getLsbD_lane A ⟨n.val / 64, by omega⟩ (n.val % 64) (Nat.mod_lt _ (by omega))
  simp only [hbyte, hbit] at hlane
  exact hlane

/-- A state bit outside the byte written keeps its value (R62). -/
theorem stateBit_setByte_of_ne (A : Lanes) (i : Fin 200) (b : Byte) (n : Fin 1600) (h : n.val / 8 ≠ i.val) :
    stateBit (setByte A i b) n = stateBit A n := by
  have hbyte : (⟨n.val / 8, by omega⟩ : Fin 200) ≠ i := fun e => h (congrArg Fin.val e)
  rw [stateBit_eq_getLsbD_getByte, stateBit_eq_getLsbD_getByte, getByte_setByte_of_ne A i _ b hbyte]

/-- Settles O9: lane against bytes, byte against its lane, bit against its byte; bit against its lane is `stateBit`'s
definition. -/
theorem laneIsItsEightBytes : Obligations.LaneIsItsEightBytes := fun A =>
  ⟨lane_eq_memRead A, extractLsb'_lane A, stateBit_eq_getLsbD_getByte A, fun _ => rfl⟩

/-- Settles O10: the byte written, every other byte, and through the bytes every bit outside the byte written. -/
theorem byteWriteChangesOnlyItsBits : Obligations.ByteWriteChangesOnlyItsBits := fun A i b =>
  ⟨getByte_setByte_self A i b, fun a ha => getByte_setByte_of_ne A i a b ha, stateBit_setByte_of_ne A i b⟩

end Sys2Proof.Machine
end

section
/-! PROOFS. The digest stays until INIT or reset (spec/20_memory.md R67, spec/41_sponge.md R146,
spec/70_reset_and_hazards.md R210). -/

namespace Sys2Proof.Machine

/-- `digest_o` reads the phase and the lanes only (R34, R35). -/
theorem digestO_congr {s t : State} (hp : t.phase = s.phase) (hl : t.lanes = s.lanes) : digestO t = digestO s := by
  have hv : digestValid t = digestValid s := by rw [digestValid, digestValid, hp]
  rw [digestO, digestO, hv, hl]

/-- From an idle state in phase FINALIZED, an edge that is neither a reset nor INIT's accept edge keeps the phase, the
lanes and the cursor (R67, R146). -/
theorem step_keeps_finalized {s t : State} (h : step s = .next t) (hp : s.phase = .finalized) (hb : s.busy = false)
    (hr : s.port.rst = false) (ha : ¬ s.Accepts (encode .init)) :
    t.phase = s.phase ∧ t.lanes = s.lanes ∧ t.cursor = s.cursor := by
  rcases step_cases_by_command s t h with ⟨hrst, _⟩ | ⟨_, hbusy, _⟩ | ⟨i, hacc, hx⟩ | ⟨w, e, _, _, rfl⟩ | ⟨_, _, _, rfl⟩
  · simp [hr] at hrst
  · simp [hb] at hbusy
  · have hi : i ≠ .init := fun e => ha (e ▸ hacc)
    obtain ⟨hlanes, hcursor, hphase, _⟩ := exec_keeps_finalized hx hi hp
    exact ⟨hphase, hlanes, hcursor⟩
  · exact ⟨rfl, rfl, rfl⟩
  · exact ⟨rfl, rfl, rfl⟩

/-- Settles O52: the invariants make a FINALIZED state idle, and then no edge but reset and INIT writes what the digest
is read from. -/
theorem digestImmutable : Obligations.DigestImmutable := by
  intro s t hs hp hr ha h
  obtain ⟨hphase, hlanes, hcursor⟩ := step_keeps_finalized h hp (hs.finalizedIdle hp) hr ha
  exact ⟨hphase.trans hp, hlanes, hcursor, digestO_congr hphase hlanes⟩

end Sys2Proof.Machine
end

section
/-! PROOFS. Decoding: what R83's cascade gives for each word, the illegal classes by their fields, and the command whose
row a word lies in (spec/30_encoding.md R80 to R84, spec/opcode_table.json). -/

namespace Sys2Proof

/-! ### The cascade and the encoder -/

/-- Settles O1: the encoder and the decoder are inverse to each other on the commands' words. -/
theorem decodeEncodeAgree : Obligations.DecodeEncodeAgree := fun w i =>
  ⟨encode_of_decode w i, fun h => h ▸ decode_encode i⟩

/-- A word with ABSORB's upper byte (R83). -/
theorem decode_of_absorb_high {w : CmdWord} (h : w.extractLsb' 8 8 = 0x20#8) :
    decode w = .ok (.absorb (CmdWord.data w)) := by
  have hnop : w ≠ 0x0000#16 := by rintro rfl; exact absurd h (by decide)
  have hinit : w ≠ 0x1000#16 := by rintro rfl; exact absurd h (by decide)
  rw [decode, if_neg hnop, if_neg hinit, if_pos h]

/-- The class of an illegal word keeps the word. -/
theorem classifyIllegal_word (w : CmdWord) : (classifyIllegal w).word = w := by
  unfold classifyIllegal
  split
  · rfl
  split <;> rfl

/-- Settles O2: each word of R83 is its command's word or has ABSORB's upper byte, and the last line of the cascade
names the word. -/
theorem decodeFollowsTheCascade : Obligations.DecodeFollowsTheCascade := by
  intro w
  refine ⟨fun h => h ▸ decode_encode .nop, fun h => h ▸ decode_encode .init, decode_of_absorb_high,
    fun h => h ▸ decode_encode .finalize, ?_⟩
  rintro ⟨hnop, hinit, habsorb, hfinalize⟩
  refine ⟨classifyIllegal w, ?_, classifyIllegal_word w⟩
  rw [decode, if_neg hnop, if_neg hinit, if_neg habsorb, if_neg hfinalize]

/-- The one error a word can decode to is its class. -/
theorem eq_classifyIllegal_of_decode {w : CmdWord} {e : IllegalWord} (h : decode w = .error e) :
    e = classifyIllegal w := by
  unfold decode at h
  split at h
  · cases h
  split at h
  · cases h
  split at h
  · cases h
  split at h
  · cases h
  · exact (Except.error.inj h).symm

/-! ### The fields of a word -/

/-- A word is made of its three fields (R80). -/
theorem CmdWord.ofFields_fields (w : CmdWord) :
    CmdWord.ofFields (CmdWord.op w) (CmdWord.rsv w) (CmdWord.data w) = w := by
  have hhigh : w.extractLsb' 12 4 ++ w.extractLsb' 8 4 = w.extractLsb' 8 8 :=
    BitVec.extractLsb'_append_extractLsb'_eq_extractLsb' rfl
  have hall : w.extractLsb' 8 8 ++ w.extractLsb' 0 8 = w.extractLsb' 0 16 :=
    BitVec.extractLsb'_append_extractLsb'_eq_extractLsb' rfl
  rw [CmdWord.ofFields, CmdWord.op, CmdWord.rsv, CmdWord.data, hhigh, hall, BitVec.extractLsb'_eq_self]

/-- The four values of OP below 4 (R82). -/
theorem op_cases : ∀ op : BitVec 4, op < 4#4 → op = 0#4 ∨ op = 1#4 ∨ op = 2#4 ∨ op = 3#4 := by decide

/-- The field check, as a proposition (R80, R82). -/
theorem CmdWord.legal_iff (w : CmdWord) :
    CmdWord.legal w = true ↔
      CmdWord.op w < 4#4 ∧ CmdWord.rsv w = 0#4 ∧ (CmdWord.op w = 2#4 ∨ CmdWord.data w = 0#8) := by
  simp [CmdWord.legal, and_assoc]

/-- Every command's word is in its row of the table, with RSV zero, and passes the field check. -/
theorem encodingRow_statement (i : Instr) : Laws.EncodingRow.Statement i := by
  cases i with
  | nop => exact Laws.EncodingRow.nop
  | init => exact Laws.EncodingRow.init
  | absorb b => exact Laws.EncodingRow.absorb b
  | finalize => exact Laws.EncodingRow.finalize

/-- A word that passes the field check is made of the fields of some command. -/
theorem exists_encode_of_legal {w : CmdWord} (h : CmdWord.legal w = true) : ∃ i, encode i = w := by
  obtain ⟨hop, hrsv, hdata⟩ := (CmdWord.legal_iff w).1 h
  rw [← CmdWord.ofFields_fields w, hrsv]
  rcases op_cases _ hop with hop | hop | hop | hop <;> rw [hop] at hdata ⊢
  · exact ⟨.nop, by rw [hdata.resolve_left (by decide)]; rfl⟩
  · exact ⟨.init, by rw [hdata.resolve_left (by decide)]; rfl⟩
  · exact ⟨.absorb (CmdWord.data w), rfl⟩
  · exact ⟨.finalize, by rw [hdata.resolve_left (by decide)]; rfl⟩

/-- The field check finds exactly the words that decode to a command (R80, R83). -/
theorem legal_iff_decode (w : CmdWord) : CmdWord.legal w = true ↔ ∃ i, decode w = .ok i := by
  constructor
  · intro h
    obtain ⟨i, rfl⟩ := exists_encode_of_legal h
    exact ⟨i, decode_encode i⟩
  · rintro ⟨i, h⟩
    obtain ⟨_, _, hlegal⟩ := encodingRow_statement i
    exact encode_of_decode w i h ▸ hlegal

/-! ### The classes of illegal words -/

/-- A word decodes to an error exactly when it fails the field check, and then to its own class. -/
theorem decode_eq_error_iff (w : CmdWord) (e : IllegalWord) :
    decode w = .error e ↔ CmdWord.legal w = false ∧ classifyIllegal w = e := by
  rw [← Bool.not_eq_true, legal_iff_decode]
  cases hd : decode w with
  | ok i => simp
  | error e' => simp [eq_classifyIllegal_of_decode hd]

/-- The class is told by OP, and below 4 by RSV (R84). -/
theorem classifyIllegal_eq_iff (w : CmdWord) :
    (classifyIllegal w = .badOp w ↔ 4#4 ≤ CmdWord.op w) ∧
    (classifyIllegal w = .badRsv w ↔ CmdWord.op w < 4#4 ∧ CmdWord.rsv w ≠ 0#4) ∧
    (classifyIllegal w = .badData w ↔ CmdWord.op w < 4#4 ∧ CmdWord.rsv w = 0#4) := by
  rw [← BitVec.not_le]
  unfold classifyIllegal
  by_cases hop : 4#4 ≤ CmdWord.op w
  · simp [hop]
  · by_cases hrsv : CmdWord.rsv w = 0#4 <;> simp [hop, hrsv]

/-- R84(a). -/
theorem decode_eq_badOp_iff (w : CmdWord) : decode w = .error (.badOp w) ↔ 4#4 ≤ CmdWord.op w := by
  obtain ⟨hclass, _, _⟩ := classifyIllegal_eq_iff w
  rw [decode_eq_error_iff, hclass, ← Bool.not_eq_true, CmdWord.legal_iff]
  exact and_iff_right_of_imp fun hge ⟨hlt, _, _⟩ => BitVec.not_lt.2 hge hlt

/-- R84(b). -/
theorem decode_eq_badRsv_iff (w : CmdWord) :
    decode w = .error (.badRsv w) ↔ CmdWord.op w < 4#4 ∧ CmdWord.rsv w ≠ 0#4 := by
  obtain ⟨_, hclass, _⟩ := classifyIllegal_eq_iff w
  rw [decode_eq_error_iff, hclass, ← Bool.not_eq_true, CmdWord.legal_iff]
  exact and_iff_right_of_imp fun ⟨_, hne⟩ ⟨_, hzero, _⟩ => hne hzero

/-- The OP values of the commands without operand (R82). -/
theorem op_mem_iff : ∀ op : BitVec 4, op ∈ [0#4, 1#4, 3#4] ↔ op < 4#4 ∧ op ≠ 2#4 := by decide

/-- R84(c). -/
theorem decode_eq_badData_iff (w : CmdWord) :
    decode w = .error (.badData w) ↔
      CmdWord.op w ∈ [0#4, 1#4, 3#4] ∧ CmdWord.rsv w = 0#4 ∧ CmdWord.data w ≠ 0#8 := by
  obtain ⟨_, _, hclass⟩ := classifyIllegal_eq_iff w
  rw [decode_eq_error_iff, hclass, ← Bool.not_eq_true, CmdWord.legal_iff, op_mem_iff]
  tauto

/-- Settles O3: the words refused are those that fail the field check, and each class is told by the first field that
breaks it. -/
theorem illegalWordClasses : Obligations.IllegalWordClasses := fun w =>
  ⟨decode_eq_badOp_iff w, decode_eq_badRsv_iff w, decode_eq_badData_iff w, legal_iff_decode w⟩

/-! ### The number of legal words -/

/-- The words of `n` bits are the numbers below `2 ^ n`. -/
theorem natCard_bitVec (n : Nat) : Nat.card (BitVec n) = 2 ^ n := by
  rw [Nat.card_congr BitVec.equivFin.toEquiv, Nat.card_fin]

/-- Three commands without operand, and ABSORB of 256 bytes (R82). -/
theorem card_instr : Nat.card Instr = 259 := by
  have hsplit : (Set.univ : Set Instr) = insert .nop (insert .init (insert .finalize (Set.range .absorb))) := by
    ext i
    cases i <;> simp
  have habsorb : (Set.range Instr.absorb).ncard = 2 ^ 8 := by
    rw [Set.ncard_range_of_injective fun _ _ h => Instr.absorb.inj h, natCard_bitVec]
  rw [← Set.ncard_univ, hsplit, Set.ncard_insert_of_notMem (by simp), Set.ncard_insert_of_notMem (by simp),
    Set.ncard_insert_of_notMem (by simp), habsorb]
  rfl

/-- The words that decode to a command are the encoder's values. -/
theorem setOf_decode_ok : {w : CmdWord | ∃ i, decode w = .ok i} = Set.range encode :=
  Set.ext fun w => exists_congr fun i => decodeEncodeAgree w i

/-- Every other word decodes to an error. -/
theorem setOf_decode_error : {w : CmdWord | ∃ e, decode w = .error e} = (Set.range encode)ᶜ := by
  rw [← setOf_decode_ok]
  ext w
  cases hd : decode w <;> simp [hd]

/-- Settles O4: the encoder is injective, so there are as many legal words as commands. -/
theorem legalWordCount : Obligations.LegalWordCount := by
  have hlegal : (Set.range encode).ncard = 259 := by
    rw [Set.ncard_range_of_injective fun i j => (encode_inj i j).1, card_instr]
  unfold Obligations.LegalWordCount
  rw [setOf_decode_ok, setOf_decode_error, Set.ncard_compl, hlegal, natCard_bitVec]
  exact ⟨rfl, rfl⟩

/-! ### The opcode table -/

/-- The table has one row for each command, ABSORB's for all its operands. -/
theorem mem_opcodeTable (r : OpcodeRow) : r ∈ opcodeTable ↔ ∃ i, r = opcodeRow i := by
  constructor
  · intro h
    simp only [opcodeTable, List.mem_cons, List.not_mem_nil, or_false] at h
    rcases h with rfl | rfl | rfl | rfl
    · exact ⟨.nop, rfl⟩
    · exact ⟨.init, rfl⟩
    · exact ⟨.absorb 0#8, rfl⟩
    · exact ⟨.finalize, rfl⟩
  · rintro ⟨i, rfl⟩
    cases i <;> simp [opcodeTable, opcodeRow]

/-- A row that fixes every bit holds its pattern only. -/
theorem OpcodeRow.holds_full {p w : CmdWord} (h : (⟨p, 0xFFFF#16⟩ : OpcodeRow).holds w = true) : w = p := by
  have hand : w &&& BitVec.allOnes 16 = p := by simpa [OpcodeRow.holds] using h
  rwa [BitVec.and_allOnes] at hand

/-- ABSORB's row fixes the upper byte. -/
theorem OpcodeRow.holds_absorb {w : CmdWord} (h : (⟨0x2000#16, 0xFF00#16⟩ : OpcodeRow).holds w = true) :
    w.extractLsb' 8 8 = 0x20#8 := by
  have hand : w &&& 0xFF00#16 = 0x2000#16 := by simpa [OpcodeRow.holds] using h
  calc w.extractLsb' 8 8 = w.extractLsb' 8 8 &&& BitVec.allOnes 8 := BitVec.and_allOnes.symm
    _ = (w &&& 0xFF00#16).extractLsb' 8 8 := by rw [BitVec.extractLsb'_and]; rfl
    _ = 0x20#8 := by rw [hand]; rfl

/-- A word in a command's row decodes to a command of that row. -/
theorem decode_of_holds {i : Instr} {w : CmdWord} (h : (opcodeRow i).holds w = true) :
    ∃ j, decode w = .ok j ∧ opcodeRow j = opcodeRow i := by
  cases i with
  | nop => exact ⟨.nop, OpcodeRow.holds_full h ▸ decode_encode .nop, rfl⟩
  | init => exact ⟨.init, OpcodeRow.holds_full h ▸ decode_encode .init, rfl⟩
  | absorb b => exact ⟨_, decode_of_absorb_high (OpcodeRow.holds_absorb h), rfl⟩
  | finalize => exact ⟨.finalize, OpcodeRow.holds_full h ▸ decode_encode .finalize, rfl⟩

/-- A command's word lies in the command's row (R82). -/
theorem holds_of_decode {w : CmdWord} {i : Instr} (h : decode w = .ok i) : (opcodeRow i).holds w = true := by
  obtain ⟨hrow, _, _⟩ := encodingRow_statement i
  exact encode_of_decode w i h ▸ hrow

/-- Settles O5: a word in a row of the table decodes to a command of that row, and a word decodes to one command. -/
theorem opcodeRowsPartition : Obligations.OpcodeRowsPartition := by
  constructor
  · intro w i hd r hr
    obtain ⟨k, rfl⟩ := (mem_opcodeTable r).1 hr
    constructor
    · intro h
      obtain ⟨j, hj, hrow⟩ := decode_of_holds h
      obtain rfl : i = j := Except.ok.inj (hd.symm.trans hj)
      exact hrow.symm
    · intro h
      exact h ▸ holds_of_decode hd
  · intro w e hd r hr
    obtain ⟨k, rfl⟩ := (mem_opcodeTable r).1 hr
    refine Bool.eq_false_iff.2 fun h => ?_
    obtain ⟨j, hj, _⟩ := decode_of_holds h
    cases hd.symm.trans hj

end Sys2Proof
end

section
/-! PROOFS. The words that assembly lines stand for (spec/30_encoding.md R87 to R89) and a table word placed on the
command port (log entries 2 and 15). -/

namespace Sys2Proof.Machine

/-! ### Assembly -/

/-- A program of one line. -/
theorem assembleLines_singleton {l : AsmLine} (h : l.wellFormed = true) : assembleLines [l] = some l.expand := by
  simp [assembleLines, h]

/-- An operand out of range is an assembly error (R87). -/
theorem assembleLines_singleton_eq_none {l : AsmLine} (h : l.wellFormed = false) : assembleLines [l] = none := by
  simp [assembleLines, h]

/-- `0x2000 + v` is ABSORB's word of the byte `v` (R82, R87). -/
theorem absorbWord_eq_encode {v : Nat} (h : v < 256) : absorbWord v = encode (.absorb (BitVec.ofNat 8 v)) := by
  apply BitVec.eq_of_toNat_eq
  calc (absorbWord v).toNat = (0x2000 + v) % 2 ^ 16 := rfl
    _ = 0x20 <<< 8 + v := Nat.mod_eq_of_lt (by omega)
    _ = 0x20 <<< 8 ||| v := Nat.shiftLeft_add_eq_or_of_lt h 0x20
    _ = (0x20#8 ++ BitVec.ofNat 8 v).toNat := by
      rw [BitVec.toNat_append, BitVec.toNat_ofNat, BitVec.toNat_ofNat, Nat.mod_eq_of_lt h]

/-- ABSORB's word of a byte. -/
theorem absorbWord_toNat (b : Byte) : absorbWord b.toNat = encode (.absorb b) := by
  rw [absorbWord_eq_encode b.isLt, BitVec.ofNat_toNat, BitVec.setWidth_eq]

/-- HASH of bytes is the source's `hash` (R88, R147). -/
theorem expand_hash (m : List Byte) : (AsmLine.hash (m.map BitVec.toNat)).expand = hashWords m := by
  have hbytes : absorbWord ∘ BitVec.toNat = fun b : Byte => encode (.absorb b) := funext absorbWord_toNat
  rw [AsmLine.expand, List.map_map, hbytes]
  rfl

/-- ABSORB_FILL is the ABSORBs of equal bytes (R88). -/
theorem expand_absorbFill {v : Nat} (h : v < 256) (n : Nat) :
    (AsmLine.absorbFill v n).expand = absorbWords (List.replicate n (BitVec.ofNat 8 v)) := by
  rw [AsmLine.expand, absorbWords, List.map_replicate, absorbWord_eq_encode h]

/-- Settles O7: each line's operands are in range exactly as R87 says, and its expansion is its commands' words. -/
theorem assemblyExpansions : Obligations.AssemblyExpansions := by
  refine ⟨fun v hv => ?_, fun v hv => ?_, fun m => ?_, fun v n hv => ?_, rfl, rfl⟩
  · have hrange : (AsmLine.absorb v).wellFormed = true := decide_eq_true hv
    rw [assembleLines_singleton hrange, AsmLine.expand, absorbWord_eq_encode hv]
  · exact assembleLines_singleton_eq_none (decide_eq_false (Nat.not_lt.2 hv))
  · have hrange : (AsmLine.hash (m.map BitVec.toNat)).wellFormed = true := by
      simpa [AsmLine.wellFormed] using fun b : Byte => fun _ : b ∈ m => b.isLt
    rw [assembleLines_singleton hrange, expand_hash]
  · have hrange : (AsmLine.absorbFill v n).wellFormed = true := decide_eq_true hv
    rw [assembleLines_singleton hrange, expand_absorbFill hv]

/-- Settles O6: the texts are read and assembled by evaluation; the words decode by the rules for a command's word and
for each illegal class. -/
theorem encodingExamples : Obligations.EncodingExamples :=
  ⟨by decide, decode_encode (.absorb 0x61#8), by decide, decode_encode (.absorb 0xFF#8),
    by decide, decode_encode (.absorb 0x00#8), by decide, decode_encode .init, by decide, decode_encode .finalize,
    by decide, (decode_eq_badData_iff _).2 (by decide), by decide, (decode_eq_badRsv_iff _).2 (by decide),
    by decide, (decode_eq_badOp_iff _).2 (by decide), by decide, (decode_eq_badOp_iff _).2 (by decide), by decide⟩

/-! ### A table word on the command port -/

/-- What the decoder reads from a table word. -/
theorem decodeTableWord_eq_some_iff (nbits w : Nat) (i : Instr) :
    decodeTableWord nbits w = some i ↔ decode (tableWord nbits w) = .ok i := by
  unfold decodeTableWord
  cases decode (tableWord nbits w) <;> simp

/-- The word that is placed is accepted: the core is settled, so it is ready (R31, R32). -/
theorem State.presentWord_accepts (s : State) (w : CmdWord) : (s.presentWord w).Accepts w :=
  (State.accepts_iff _ w).2 ⟨rfl, s.settle_busy, rfl, rfl⟩

/-- Settles O27: the placed word is the word of `i` and is accepted, so its accept edge runs `i`. -/
theorem fetchWordRunsNext : Obligations.FetchWordRunsNext := by
  intro s nbits w i h
  have hword : encode i = tableWord nbits w := encode_of_decode _ i ((decodeTableWord_eq_some_iff nbits w i).1 h)
  have haccepts : (s.withFetchWord nbits w).Accepts (encode i) := hword ▸ s.presentWord_accepts (tableWord nbits w)
  exact step_of_accepts_encode haccepts

end Sys2Proof.Machine
end

section
/-! PROOFS. The permutation's steps one by one: rotation, θ, χ, ι and a round (spec/40_permutation.md R106, R107, R110
to R113). -/

namespace Sys2Proof.Machine

/-! ### Rotation -/

/-- The model's rotation is the library's (R106, log entry 8). -/
theorem rotl64_eq_rotateLeft (x : Lane) (n : Nat) : rotl64 x n = x.rotateLeft n := rfl

/-- R106 by bits, for every amount below 64. -/
theorem getLsbD_rotl64 (x : Lane) {n j : Nat} (hn : n < 64) (hj : j < 64) :
    (rotl64 x n).getLsbD j = x.getLsbD ((j + (64 - n)) % 64) := by
  rw [rotl64_eq_rotateLeft, BitVec.getLsbD_rotateLeft, Nat.mod_eq_of_lt hn]
  by_cases hwrap : j < n
  · have hsrc : (j + (64 - n)) % 64 = 64 - n + j := by omega
    simp [hwrap, hsrc]
  · have hsrc : (j + (64 - n)) % 64 = j - n := by omega
    simp [hwrap, hj, hsrc]

/-- Rotation by 0 changes nothing. -/
theorem rotl64_zero (x : Lane) : rotl64 x 0 = x := by
  apply BitVec.eq_of_getLsbD_eq
  intro j hj
  have hsrc : (j + (64 - 0)) % 64 = j := by omega
  rw [getLsbD_rotl64 x (by omega) hj, hsrc]

/-- The zero lane rotates to itself. -/
theorem zero_rotl64 (n : Nat) : rotl64 0#64 n = 0#64 := by simp [rotl64]

/-- The all-ones lane rotates to itself. -/
theorem allOnes_rotl64 {n : Nat} (hn : n < 64) : rotl64 (BitVec.allOnes 64) n = BitVec.allOnes 64 := by
  apply BitVec.eq_of_getLsbD_eq
  intro j hj
  have hsrc : (j + (64 - n)) % 64 < 64 := Nat.mod_lt _ (by omega)
  rw [getLsbD_rotl64 _ hn hj, BitVec.getLsbD_allOnes, BitVec.getLsbD_allOnes, decide_eq_true hsrc, decide_eq_true hj]

/-- Settles O13: the bits below the amount wrap around, the others move up. -/
theorem rotationMovesBits : Obligations.RotationMovesBits := fun x _ _ _ hn hj =>
  getLsbD_rotl64 x (Nat.lt_succ_of_le hn) hj

/-- Settles O12: an amount in 1..63 is its own remainder modulo 64; the amounts used are R101's 24 numbers. -/
theorem rotationFormula : Obligations.RotationFormula := by
  refine ⟨fun x n _ hn => ?_, by decide, by decide, fun n _ hn => allOnes_rotl64 (Nat.lt_succ_of_le hn)⟩
  rw [rotl64, Nat.mod_eq_of_lt (Nat.lt_succ_of_le hn)]

/-! ### θ -/

/-- A lane after θ, from the column parities (R107). -/
theorem getElem_theta (A : Lanes) (k : Fin 25) :
    (theta A)[k] = A[k] ^^^ ((thetaC A)[(k.val % 5 + 4) % 5] ^^^ rotl64 (thetaC A)[(k.val % 5 + 1) % 5] 1) := by
  simp [theta, thetaD]

/-- The parity of a column (R107). -/
theorem getElem_thetaC (A : Lanes) (x : Fin 5) :
    (thetaC A)[x] = A[x.val] ^^^ A[x.val + 5] ^^^ A[x.val + 10] ^^^ A[x.val + 15] ^^^ A[x.val + 20] := by
  simp [thetaC]

/-- Five equal lanes have their value as parity. -/
theorem thetaC_replicate (v : Lane) : thetaC (Vector.replicate 25 v) = Vector.replicate 5 v := by
  ext1 x hx
  simp [thetaC]

/-- In a state of equal lanes the lane cancels against one parity, which leaves the other one rotated. -/
theorem theta_replicate (v : Lane) : theta (Vector.replicate 25 v) = Vector.replicate 25 (rotl64 v 1) := by
  ext1 k hk
  have hlane := getElem_theta (Vector.replicate 25 v) ⟨k, hk⟩
  simpa [thetaC_replicate, ← BitVec.xor_assoc] using hlane

/-- θ keeps the zero state (R107). -/
theorem theta_zeroLanes : theta zeroLanes = zeroLanes := by
  rw [zeroLanes, theta_replicate, zero_rotl64]

/-- Settles O14: `C` is the vector of parities; the two fixed points are states of equal lanes. -/
theorem thetaByLanes : Obligations.ThetaByLanes := by
  refine ⟨fun A C hC k => ?_, theta_zeroLanes, ?_, by decide⟩
  · have hparity : ∀ x : Fin 5, (thetaC A)[x] = C x := fun x => (getElem_thetaC A x).trans (hC x).symm
    rw [getElem_theta, ← hparity, ← hparity]
    rfl
  · rw [theta_replicate, allOnes_rotl64 (by omega)]

/-! ### χ -/

/-- A lane after χ, from its row's old values (R110). -/
theorem getElem_chi (A : Lanes) (k : Fin 25) :
    (chi A)[k] =
      A[k] ^^^ (~~~A[(k.val % 5 + 1) % 5 + 5 * (k.val / 5)] &&& A[(k.val % 5 + 2) % 5 + 5 * (k.val / 5)]) := by
  simp [chi]

/-- χ keeps a state of equal lanes: `~v & v` is 0. -/
theorem chi_replicate (v : Lane) : chi (Vector.replicate 25 v) = Vector.replicate 25 v := by
  ext1 k hk
  have hlane := getElem_chi (Vector.replicate 25 v) ⟨k, hk⟩
  simpa using hlane

/-- χ keeps the zero state (R110). -/
theorem chi_zeroLanes : chi zeroLanes = zeroLanes := chi_replicate 0#64

/-- Settles O17: lane `x + 5y` lies in column `x` and row `y`; the fixed points are states of equal lanes. -/
theorem chiFromOldRow : Obligations.ChiFromOldRow := by
  refine ⟨fun A x y => ?_, chi_zeroLanes, chi_replicate _, by decide⟩
  have hcol : (x.val + 5 * y.val) % 5 = x.val := by omega
  have hrow : (x.val + 5 * y.val) / 5 = y.val := by omega
  have hlane := getElem_chi A ⟨x.val + 5 * y.val, by omega⟩
  simp only [Fin.getElem_fin, hcol, hrow] at hlane
  exact hlane

/-! ### ι and the round -/

/-- ι changes lane 0 (R111). -/
theorem getElem_iota (A : Lanes) (r : Fin 24) (k : Fin 25) :
    (iota A r)[k] = if k = 0 then A[k] ^^^ roundConstants[r] else A[k] := by
  by_cases hk : k = 0
  · subst hk
    simp [iota]
  · have h0 : ¬ 0 = k.val := fun e => hk (Fin.ext e.symm)
    simp [iota, hk, h0]

/-- ι of the zero state is the round constant in lane 0 (R111). -/
theorem iota_zeroLanes (r : Fin 24) : iota zeroLanes r = zeroLanes.set 0 roundConstants[r] := by
  simp [iota, zeroLanes]

/-- Settles O18: both clauses are the lane's two cases; the examples are evaluated. -/
theorem iotaTouchesLaneZero : Obligations.IotaTouchesLaneZero := by
  refine ⟨fun A r => getElem_iota A r 0, fun A r k hk => ?_, by decide, by decide⟩
  rw [getElem_iota, if_neg hk]

end Sys2Proof.Machine
end

section
/-! PROOFS. ρ and π in one pass against the destination table and the coordinates of FIPS 202, and a round of the zero
state (spec/40_permutation.md R101 to R104, R108, R109, R112). -/

namespace Sys2Proof.Machine

/-- A lane that is no destination of the pass keeps its value (R108). -/
theorem getElem_foldl_rhopiStep_of_not_mem (l : List (Fin 25 × Nat)) (p : Lanes × Lane) {k : Fin 25}
    (hk : k ∉ l.map Prod.fst) : (l.foldl rhopiStep p).1[k] = p.1[k] := by
  induction l generalizing p with
  | nil => rfl
  | cons e l ih =>
    have hval : e.1.val ≠ k.val := fun h => List.ne_of_not_mem_cons hk (Fin.ext h.symm)
    rw [List.foldl_cons, ih _ (List.not_mem_of_not_mem_cons hk)]
    simp [rhopiStep, hval]

/-- Each destination of the pass takes the old value of the destination before it, rotated; the first one takes the lane
`A[j]` carried in (R108). `B` is the lane file on the way: `A`, but for the destinations already written. -/
theorem getElem_foldl_rhopiStep {A B : Lanes} {l : List (Fin 25 × Nat)} {j : Fin 25}
    (hdistinct : (l.map Prod.fst).Nodup) (hB : ∀ k ∈ l.map Prod.fst, B[k] = A[k]) :
    ∀ p ∈ (j :: l.map Prod.fst).zip l, (l.foldl rhopiStep (B, A[j])).1[p.2.1] = rotl64 A[p.1] p.2.2 := by
  induction l generalizing B j with
  | nil => simp
  | cons e l ih =>
    obtain ⟨he, hl⟩ := List.nodup_cons.1 hdistinct
    have hcarried : rhopiStep (B, A[j]) e = (B.set e.1 (rotl64 A[j] e.2), A[e.1]) :=
      Prod.ext rfl (hB e.1 (by simp))
    intro p hp
    rw [List.foldl_cons, hcarried]
    rcases List.mem_cons.1 hp with rfl | hp
    · rw [getElem_foldl_rhopiStep_of_not_mem l _ he]
      simp
    · refine ih hl (fun k hk => ?_) p hp
      have hval : e.1.val ≠ k.val := fun h => he (Fin.ext h ▸ hk)
      rw [← hB k (by simp [hk])]
      simp [hval]

/-- R103's table follows the pass: each row's source is the destination before it, `A[1]` for the first. -/
theorem rhopiTable_mem_pass : ∀ k : Fin 25, k ≠ 0 →
    (rhopiTable[k].1, k, rhopiTable[k].2) ∈
      (1 :: (piLanes.zip rotAmounts).map Prod.fst).zip (piLanes.zip rotAmounts) := by decide

/-- Every step of the pass, at its destination: the carried lane, rotated (R108). -/
theorem getElem_rhopi_of_mem_pass (A : Lanes) (p : Fin 25 × Fin 25 × Nat)
    (hp : p ∈ (1 :: (piLanes.zip rotAmounts).map Prod.fst).zip (piLanes.zip rotAmounts)) :
    (rhopi A)[p.2.1] = rotl64 A[p.1] p.2.2 :=
  getElem_foldl_rhopiStep (A := A) (B := A) (l := piLanes.zip rotAmounts) (j := 1) (by decide) (fun _ _ => rfl) p hp

/-- The one pass by destination; lane 0 keeps its place, as its row says (R103, R109). -/
theorem getElem_rhopi (A : Lanes) (k : Fin 25) : (rhopi A)[k] = rotl64 A[rhopiTable[k].1] rhopiTable[k].2 := by
  by_cases hk : k = 0
  · subst hk
    have hkept : (rhopi A)[(0 : Fin 25)] = A[(0 : Fin 25)] :=
      getElem_foldl_rhopiStep_of_not_mem (piLanes.zip rotAmounts) (A, A[1]) (by decide)
    exact hkept.trans (rotl64_zero A[0]).symm
  · exact getElem_rhopi_of_mem_pass A (rhopiTable[k].1, k, rhopiTable[k].2) (rhopiTable_mem_pass k hk)

/-- Settles O15: lane 0 is no destination of the pass, and each other lane is one with its row's source and amount. -/
theorem rhoPiByDestination : Obligations.RhoPiByDestination := fun A =>
  ⟨(getElem_rhopi A 0).trans (rotl64_zero A[0]), fun k _ => getElem_rhopi A k⟩

/-- R103's table in coordinates: lane `x + 5y` takes lane `(x + 3y) % 5 + 5x`, rotated by that lane's offset. -/
theorem rhopiTable_by_coordinates (k : Fin 25) :
    rhopiTable[k] = (⟨(k.val % 5 + 3 * (k.val / 5)) % 5 + 5 * (k.val % 5), by omega⟩,
      rhoOffsets[(k.val % 5 + 3 * (k.val / 5)) % 5 + 5 * (k.val % 5)]) := by
  revert k
  decide

/-- Settles O16: lane by lane, through the destination table. -/
theorem rhoPiByCoordinates : Obligations.RhoPiByCoordinates := by
  intro A
  ext1 k hk
  have hlane := getElem_rhopi A ⟨k, hk⟩
  simp only [rhopiTable_by_coordinates] at hlane
  simpa [rhopiByCoordinates] using hlane

/-- ρ and π keep the zero state (R108). -/
theorem rhopi_zeroLanes : rhopi zeroLanes = zeroLanes := by
  ext1 k hk
  have hlane := getElem_rhopi zeroLanes ⟨k, hk⟩
  simpa [zeroLanes, zero_rotl64] using hlane

/-- A round of the zero state leaves the round constant in lane 0 (R112). -/
theorem keccakRound_zeroLanes (r : Fin 24) : keccakRound zeroLanes r = zeroLanes.set 0 roundConstants[r] := by
  rw [keccakRound, theta_zeroLanes, rhopi_zeroLanes, chi_zeroLanes, iota_zeroLanes]

/-- Settles O19: the order is the definition; the examples are rounds of the zero state. -/
theorem roundOrder : Obligations.RoundOrder :=
  ⟨fun _ _ => rfl, keccakRound_zeroLanes 0, keccakRound_zeroLanes 5⟩

/-- Settles O23: the 24 constants are evaluated. -/
theorem roundConstantsFromLfsr : Obligations.RoundConstantsFromLfsr := by
  unfold Obligations.RoundConstantsFromLfsr
  decide

/-- Settles O24: the tables are read off. -/
theorem rhoPiTablesShape : Obligations.RhoPiTablesShape := by
  unfold Obligations.RhoPiTablesShape
  decide

end Sys2Proof.Machine
end

section
/-! PROOFS. The permutation's schedule: the rounds in index order, the edge that starts them, one round an edge and the
24th edge (spec/40_permutation.md R113 to R116). -/

namespace Sys2Proof.Machine

/-- `n` rounds in index order, and then the rounds from `n` (R113). -/
theorem roundsFrom_of_trace {A : Lanes} {B : Nat → Lanes} (h0 : B 0 = A)
    (hB : ∀ r : Fin 24, B (r.val + 1) = keccakRound (B r.val) r) {n : Nat} (hn : n ≤ 24) :
    roundsFrom n (B n) = keccakF A := by
  induction n with
  | zero => rw [h0, keccakF]
  | succ n ih =>
    rw [hB ⟨n, hn⟩, ← roundsFrom_eq ⟨n, hn⟩]
    exact ih (by omega)

/-- Settles O20: after the 24th round none is left. -/
theorem keccakFIsTwentyFourRounds : Obligations.KeccakFIsTwentyFourRounds := fun _ _ h0 hB =>
  ((roundsFrom_end _).symm.trans (roundsFrom_of_trace h0 hB (Nat.le_refl 24))).symm

/-- Settles O34: at the last offset the cursor update starts the PE. -/
theorem absorbFillsBlock : Obligations.AbsorbFillsBlock := by
  intro b s hp hc
  have hlast : s.cursor = lastOffset := Fin.ext hc
  refine ⟨(s.xorState (cursorAddr s) b).advanceCursor, if_neg hp, fun a => ?_, ?_⟩
  · have haddr : a = cursorAddr s ↔ a.val = 135 := by rw [Fin.ext_iff, cursorAddr, rateAddr, hc]
    simp [getByte_xorByte, haddr]
  · rcases (s.xorState (cursorAddr s) b).advanceCursor_cases with ⟨_, ht⟩ | ⟨hne, _⟩
    · simp [ht]
    · exact absurd hlast hne

/-- The end of a permutation moves no phase but FINALIZING (R114). -/
theorem finishPhase_of_ne {p : Phase} (h : p ≠ .finalizing) : finishPhase p = p := by
  cases p with
  | ready => rfl
  | finalizing => exact absurd rfl h
  | finalized => rfl

/-- Settles O38: a busy edge is a round step, which is one of R114's two cases; a busy core accepts nothing. -/
theorem roundStepAtEachBusyEdge : Obligations.RoundStepAtEachBusyEdge := by
  intro s hr hb
  refine ⟨by simp [accepts, cmdReady, hb], s.nextCycle.peRound, step_of_busy hr hb, by simp, by simp, by simp, by simp,
    by simp, ?_⟩
  rcases s.nextCycle.peRound_cases with ⟨hlast, ht⟩ | ⟨hne, ht⟩
  · have hval : s.round.val = 23 := congrArg Fin.val hlast
    rw [ht]
    exact ⟨fun _ => ⟨rfl, rfl, congrArg finishPhase, finishPhase_of_ne⟩, fun hn => absurd hval hn⟩
  · rw [ht]
    exact ⟨fun hval => absurd (Fin.ext hval) hne, fun _ => ⟨hb, round_succ_val _ hne, rfl⟩⟩

/-! ### Edges in a row while the PE runs -/

/-- No reset in the next `n` cycles: none in the `n - k` of them that are left after `k`. -/
theorem State.NoResetFor.drop {s u : State} {n k : Nat} (h : s.NoResetFor n) (hu : u.drive = s.drive.drop k) :
    u.NoResetFor (n - k) := by
  intro p hp
  rw [hu, ← List.drop_take] at hp
  exact h p (List.mem_of_mem_drop hp)

/-- The state of a permutation started in `s` when round `r` is next, `r` edges later (R114). -/
def State.atRound (s : State) (r : Fin 24) : State :=
  { s with lanes := ((List.finRange 24).take r.val).foldl keccakRound s.lanes, round := r, drive := s.drive.drop r.val }

@[simp] theorem State.atRound_lanes (s : State) (r : Fin 24) :
    (s.atRound r).lanes = ((List.finRange 24).take r.val).foldl keccakRound s.lanes := rfl
@[simp] theorem State.atRound_cursor (s : State) (r : Fin 24) : (s.atRound r).cursor = s.cursor := rfl
@[simp] theorem State.atRound_phase (s : State) (r : Fin 24) : (s.atRound r).phase = s.phase := rfl
@[simp] theorem State.atRound_busy (s : State) (r : Fin 24) : (s.atRound r).busy = s.busy := rfl
@[simp] theorem State.atRound_round (s : State) (r : Fin 24) : (s.atRound r).round = r := rfl
@[simp] theorem State.atRound_errSeq (s : State) (r : Fin 24) : (s.atRound r).errSeq = s.errSeq := rfl
@[simp] theorem State.atRound_errIll (s : State) (r : Fin 24) : (s.atRound r).errIll = s.errIll := rfl
@[simp] theorem State.atRound_drive (s : State) (r : Fin 24) : (s.atRound r).drive = s.drive.drop r.val := rfl

/-- The round applied next joins the rounds already applied. -/
theorem keccakRound_foldl_take (A : Lanes) (r : Fin 24) :
    keccakRound (((List.finRange 24).take r.val).foldl keccakRound A) r =
      ((List.finRange 24).take (r.val + 1)).foldl keccakRound A := by
  have hl : r.val < (List.finRange 24).length := by simp
  rw [← List.take_append_getElem hl, List.foldl_append]
  simp

/-- All 24 rounds are Keccak-f (R113). -/
theorem foldl_take_rounds (A : Lanes) : ((List.finRange 24).take 24).foldl keccakRound A = keccakF A := by
  rw [List.take_of_length_le (by simp), keccakF, roundsFrom, List.drop_zero]

/-- No reset is driven in the cycle in which round `r` is next. -/
theorem State.atRound_port {s : State} (hn : s.NoResetFor 24) (r : Fin 24) : (s.atRound r).port.rst = false := by
  have hleft : (s.atRound r).NoResetFor (24 - r.val) := hn.drop rfl
  rw [show 24 - r.val = 23 - r.val + 1 by omega] at hleft
  exact hleft.port

section Schedule

variable {s : State} (hb : s.busy = true) (hn : s.NoResetFor 24) (h0 : s.round = 0)
include hb hn

/-- The edge at which round `r` is next is that round's step (R114). -/
theorem step_atRound (r : Fin 24) : step (s.atRound r) = .next (s.atRound r).nextCycle.peRound :=
  step_of_busy (State.atRound_port hn r) ((s.atRound_busy r).trans hb)

include h0

/-- `r` edges without a reset apply the rounds below `r` (R114). -/
theorem runEdges_atRound {r : Nat} (hr : r < 24) : runEdges r s = .next (s.atRound ⟨r, hr⟩) := by
  induction r with
  | zero =>
    rw [runEdges, State.atRound]
    simp [← h0]
  | succ r ih =>
    have hlt : r < 24 := by omega
    have hne : (⟨r, hlt⟩ : Fin 24) ≠ 23 := fun h => absurd (congrArg Fin.val h) (by simp; omega)
    rw [runEdges_succ r s _ (ih hlt), step_atRound hb hn]
    rcases (s.atRound ⟨r, hlt⟩).nextCycle.peRound_cases with ⟨hlast, _⟩ | ⟨_, ht⟩
    · exact absurd hlast hne
    · have hnext : (⟨r, hlt⟩ : Fin 24) + 1 = ⟨r + 1, hr⟩ := Fin.ext (round_succ_val _ hne)
      have hlanes := keccakRound_foldl_take s.lanes ⟨r, hlt⟩
      rw [ht]
      simpa [State.atRound, State.nextCycle, hnext] using hlanes

/-- The 24th edge ends the permutation: the registers are then those it settles to (R114, R116). -/
theorem runEdges_permutation : runEdges 24 s = .next { s.settle with drive := s.drive.drop 24 } := by
  have hlanes : keccakRound (((List.finRange 24).take 23).foldl keccakRound s.lanes) 23 = keccakF s.lanes :=
    (keccakRound_foldl_take s.lanes 23).trans (foldl_take_rounds s.lanes)
  rw [runEdges_succ 23 s _ (runEdges_atRound hb hn h0 (by omega)), step_atRound hb hn, s.settle_of_busy hb, h0]
  rcases (s.atRound ⟨23, by omega⟩).nextCycle.peRound_cases with ⟨_, ht⟩ | ⟨hne, _⟩
  · rw [ht]
    simpa [keccakF] using hlanes
  · exact absurd rfl hne

end Schedule

/-- Settles O39: one round an edge, by induction on the edges, and the 24th edge from the state before it. -/
theorem permutationTakesTwentyFourEdges : Obligations.PermutationTakesTwentyFourEdges := by
  intro s hb h0 hn
  refine ⟨fun r => ⟨s.atRound r, runEdges_atRound hb hn h0 r.isLt, (s.atRound_busy r).trans hb, rfl, rfl, rfl, rfl⟩,
    _, runEdges_permutation hb hn h0, ?_⟩
  rw [s.settle_of_busy hb, h0]
  exact ⟨rfl, rfl, rfl, rfl, rfl, rfl, rfl, rfl⟩

end Sys2Proof.Machine
end

section
/-! PROOFS. Known answers of the permutation and of four messages (spec/40_permutation.md R113, spec/41_sponge.md R148,
spec/95_test_vectors.md). Each run of the permutation is evaluated by the kernel. -/

namespace Sys2Proof.Machine

/-- Keccak-f of the zero state, all 25 lanes (R113's example has lanes 0 and 24). -/
theorem keccakF_zeroLanes : keccakF zeroLanes =
    #v[0xF1258F7940E1DDE7, 0x84D5CCF933C0478A, 0xD598261EA65AA9EE, 0xBD1547306F80494D, 0x8B284E056253D057,
       0xFF97A42D7F8E6FD4, 0x90FEE5A0A44647C4, 0x8C5BDA0CD6192E76, 0xAD30A6F71B19059C, 0x30935AB7D08FFC64,
       0xEB5AA93F2317D635, 0xA9A6E6260D712103, 0x81A57C16DBCF555F, 0x43B831CD0347C826, 0x01F22F1A11A5569F,
       0x05E5635A21D9AE61, 0x64BEFEF28CC970F2, 0x613670957BC46611, 0xB87C5A554FD00ECB, 0x8C3EE88A1CCF32C8,
       0x940C7922AE3A2614, 0x1841F924A2C509E4, 0x16F53526E70465C2, 0x75F644E97F30A13B, 0xEAF1FF7B5CECA249] := by
  decide +kernel

/-- A message of two padded blocks takes two permutations (R148). -/
theorem spongeState_of_two_blocks {m : List Byte} (hlow : 136 ≤ m.length) (hhigh : m.length < 272) :
    spongeState m =
      keccakF (absorbBlock (padMessage m) (keccakF (absorbBlock (padMessage m) zeroLanes 0)) 1) := by
  have hblocks : paddedLength m.length / 136 = 2 := by unfold paddedLength; omega
  simp [spongeState, hblocks, List.range_succ]

/-- V-K1: the empty message. -/
theorem keccak256_empty : keccak256 [] =
    0x70A4855D04D8FA7B#64 ++ 0x3B2782CA53B600E5#64 ++ 0xC003C7DCB27D7E92#64 ++ 0x3C23F7860146D2C5#64 := by
  decide +kernel

/-- V-K2: the message abc. -/
theorem keccak256_abc : keccak256 [0x61#8, 0x62#8, 0x63#8] =
    0x456C2DA18FF544EC#64 ++ 0x36A0643AE3E6D1C0#64 ++ 0x67D6C826A87BD4C7#64 ++ 0x4FA945EA7A65034E#64 := by
  decide +kernel

/-- V-K3: 136 zero bytes; the first block leaves the zero state, so its permutation is Keccak-f of zero. -/
theorem keccak256_zeros : keccak256 (List.replicate 136 0x00#8) =
    0xF925DB1C23CB153C#64 ++ 0xBE653C537DE89C7A#64 ++ 0x4639E3536290FEE4#64 ++ 0x6EA0FAC5A712593A#64 := by
  have hfirst : absorbBlock (padMessage (List.replicate 136 0x00#8)) zeroLanes 0 = zeroLanes := by decide +kernel
  rw [keccak256, spongeState_of_two_blocks (by simp) (by simp), hfirst, keccakF_zeroLanes]
  decide +kernel

/-- V-K4: 200 bytes 0xA3. -/
theorem keccak256_a3 : keccak256 (List.replicate 200 0xA3#8) =
    0x4A7D60CEC20A532D#64 ++ 0x1260A72D6FCBE188#64 ++ 0x255AF45644DC53C9#64 ++ 0xF27787046B66573A#64 := by
  decide +kernel

/-- Settles O21: lanes 0 and 24 are read off Keccak-f of the zero state; each digest has its own evaluation. -/
theorem knownAnswers : Obligations.KnownAnswers := by
  refine ⟨?_, ?_, keccak256_empty, keccak256_abc, keccak256_zeros, keccak256_a3⟩ <;> rw [keccakF_zeroLanes] <;> rfl

end Sys2Proof.Machine
end

section
/-! PROOFS. The closed form of a digest, byte by byte (spec/41_sponge.md R148): what one block leaves in each byte, the
state with part of a message absorbed, and the padding as FINALIZE writes it (R144). -/

namespace Sys2Proof.Machine

/-! ### One block -/

/-- Different rate offsets are different bytes (R63). -/
theorem rateAddr_inj {c d : Fin 136} : rateAddr c = rateAddr d ↔ c = d := by
  simp [rateAddr, Fin.ext_iff]

/-- XORing bytes in at other rate offsets keeps a byte. -/
theorem getByte_foldl_xorByte_of_not_mem (f : Fin 136 → Byte) {l : List (Fin 136)} {a : Fin 200}
    (h : ∀ i ∈ l, a ≠ rateAddr i) (A : Lanes) :
    getByte (l.foldl (fun T i => xorByte T (rateAddr i) (f i)) A) a = getByte A a := by
  induction l generalizing A with
  | nil => rfl
  | cons i l ih =>
    obtain ⟨hi, hl⟩ := List.forall_mem_cons.1 h
    rw [List.foldl_cons, ih hl, getByte_xorByte, if_neg hi]

/-- XORing bytes in at distinct rate offsets changes each of these bytes once. -/
theorem getByte_foldl_xorByte_of_mem (f : Fin 136 → Byte) {l : List (Fin 136)} (hl : l.Nodup) {c : Fin 136}
    (hc : c ∈ l) (A : Lanes) :
    getByte (l.foldl (fun T i => xorByte T (rateAddr i) (f i)) A) (rateAddr c) = getByte A (rateAddr c) ^^^ f c := by
  induction l generalizing A with
  | nil => cases hc
  | cons i l ih =>
    obtain ⟨hi, hl⟩ := List.nodup_cons.1 hl
    rw [List.foldl_cons]
    rcases List.mem_cons.1 hc with rfl | hc
    · have hother : ∀ k ∈ l, rateAddr c ≠ rateAddr k := fun k hk h => hi (rateAddr_inj.1 h ▸ hk)
      rw [getByte_foldl_xorByte_of_not_mem f hother, getByte_xorByte, if_pos rfl]
    · have hne : rateAddr c ≠ rateAddr i := fun h => hi (rateAddr_inj.1 h ▸ hc)
      rw [ih hl hc, getByte_xorByte, if_neg hne]

/-- Block `j` goes into the rate, byte by byte (R148). -/
theorem getByte_absorbBlock (P : List Byte) (S : Lanes) (j : Nat) (a : Fin 200) :
    getByte (absorbBlock P S j) a =
      if a.val < 136 then getByte S a ^^^ P.getD (136 * j + a.val) 0#8 else getByte S a := by
  unfold absorbBlock
  split
  case isTrue h =>
    exact getByte_foldl_xorByte_of_mem (fun i => P.getD (136 * j + i.val) 0#8) (List.nodup_finRange 136)
      (List.mem_finRange ⟨a.val, h⟩) S
  case isFalse h =>
    exact getByte_foldl_xorByte_of_not_mem (fun i => P.getD (136 * j + i.val) 0#8)
      (fun i _ e => h (congrArg Fin.val e ▸ i.isLt)) S

/-- A block depends on its own 136 bytes only. -/
theorem absorbBlock_congr {P Q : List Byte} {j : Nat}
    (h : ∀ i, i < 136 → P.getD (136 * j + i) 0#8 = Q.getD (136 * j + i) 0#8) (S : Lanes) :
    absorbBlock P S j = absorbBlock Q S j := by
  apply lanes_eq_of_getByte_eq
  intro a
  simp only [getByte_absorbBlock]
  split
  case isTrue ha => rw [h _ ha]
  case isFalse => rfl

/-- A block past the end of the bytes changes nothing. -/
theorem absorbBlock_of_length_le {P : List Byte} {j : Nat} (h : P.length ≤ 136 * j) (S : Lanes) :
    absorbBlock P S j = S := by
  apply lanes_eq_of_getByte_eq
  intro a
  rw [getByte_absorbBlock, List.getD_eq_default _ _ (by omega), BitVec.xor_zero, ite_self]

/-! ### Full blocks -/

/-- The state after the first `q` blocks of `P` are absorbed and permuted (R148). -/
def absorbedBlocks (P : List Byte) (q : Nat) : Lanes :=
  (List.range q).foldl (fun S j => keccakF (absorbBlock P S j)) zeroLanes

theorem absorbedBlocks_zero (P : List Byte) : absorbedBlocks P 0 = zeroLanes := rfl

theorem absorbedBlocks_succ (P : List Byte) (q : Nat) :
    absorbedBlocks P (q + 1) = keccakF (absorbBlock P (absorbedBlocks P q) q) := by
  simp [absorbedBlocks, List.range_succ]

/-- The first `q` blocks depend on their own bytes only. -/
theorem absorbedBlocks_congr {P Q : List Byte} {q : Nat} (h : ∀ k, k < 136 * q → P.getD k 0#8 = Q.getD k 0#8) :
    absorbedBlocks P q = absorbedBlocks Q q := by
  induction q with
  | zero => rw [absorbedBlocks_zero, absorbedBlocks_zero]
  | succ q ih =>
    have hblock : ∀ i, i < 136 → P.getD (136 * q + i) 0#8 = Q.getD (136 * q + i) 0#8 := fun i hi => h _ (by omega)
    rw [absorbedBlocks_succ, absorbedBlocks_succ, ih fun k hk => h k (by omega), absorbBlock_congr hblock]

/-- The padded message has one block more than the message has full ones (R148). -/
theorem spongeState_eq_absorbedBlocks (m : List Byte) :
    spongeState m = absorbedBlocks (padMessage m) (m.length / 136 + 1) := by
  have hblocks : paddedLength m.length / 136 = m.length / 136 + 1 := by unfold paddedLength; omega
  rw [spongeState, hblocks, absorbedBlocks]

/-! ### The message so far -/

/-- The state with the bytes of `m` absorbed one by one: the full blocks permuted, the bytes after them XORed in
(R143). -/
def absorbedLanes (m : List Byte) : Lanes :=
  absorbBlock m (absorbedBlocks m (m.length / 136)) (m.length / 136)

theorem absorbedLanes_nil : absorbedLanes [] = zeroLanes := absorbBlock_of_length_le (Nat.le_refl 0) zeroLanes

/-- Where the byte after `m` goes. -/
def messageCursor (m : List Byte) : Fin 136 := ⟨m.length % 136, Nat.mod_lt _ (by omega)⟩

/-- Byte `k` of a message one byte longer. -/
theorem getD_concat (m : List Byte) (b : Byte) (k : Nat) :
    (m ++ [b]).getD k 0#8 = if k = m.length then b else m.getD k 0#8 := by
  rcases Nat.lt_trichotomy k m.length with h | rfl | h
  · rw [List.getD_append _ _ _ _ h, if_neg (by omega)]
  · simp
  · rw [List.getD_eq_default _ _ (by simp; omega), List.getD_eq_default _ _ (by omega), if_neg (by omega)]

/-- The state after one more byte, before the end of its block is looked at (R143). -/
theorem absorbBlock_concat (m : List Byte) (b : Byte) :
    absorbBlock (m ++ [b]) (absorbedBlocks (m ++ [b]) (m.length / 136)) (m.length / 136) =
      xorByte (absorbedLanes m) (rateAddr (messageCursor m)) b := by
  have hfull : absorbedBlocks (m ++ [b]) (m.length / 136) = absorbedBlocks m (m.length / 136) :=
    absorbedBlocks_congr fun k hk => by rw [getD_concat, if_neg (by omega)]
  apply lanes_eq_of_getByte_eq
  intro a
  have hcursor : a = rateAddr (messageCursor m) ↔ a.val = m.length % 136 := Fin.ext_iff
  have hn : 136 * (m.length / 136) + a.val = m.length ↔ a.val = m.length % 136 := by omega
  rw [hfull, getByte_xorByte, absorbedLanes, getByte_absorbBlock, getByte_absorbBlock, getD_concat]
  simp only [hcursor, hn]
  by_cases ha : a.val = m.length % 136
  · have hrate : a.val < 136 := by omega
    rw [if_pos hrate, if_pos hrate, if_pos ha, if_pos ha, List.getD_eq_default _ _ (hn.2 ha).ge, BitVec.xor_zero]
  · rw [if_neg ha, if_neg ha]

/-- One more byte within a block. -/
theorem absorbedLanes_concat_of_ne {m : List Byte} (h : m.length % 136 ≠ 135) (b : Byte) :
    absorbedLanes (m ++ [b]) = xorByte (absorbedLanes m) (rateAddr (messageCursor m)) b := by
  have hq : (m ++ [b]).length / 136 = m.length / 136 := by rw [List.length_append, List.length_singleton]; omega
  rw [← absorbBlock_concat, absorbedLanes, hq]

/-- The byte that fills a block: the block is permuted, and nothing is left of the message. -/
theorem absorbedLanes_concat_of_eq {m : List Byte} (h : m.length % 136 = 135) (b : Byte) :
    absorbedLanes (m ++ [b]) = keccakF (xorByte (absorbedLanes m) (rateAddr (messageCursor m)) b) := by
  have hlen : (m ++ [b]).length = 136 * (m.length / 136 + 1) := by rw [List.length_append, List.length_singleton]; omega
  have hq : (m ++ [b]).length / 136 = m.length / 136 + 1 := by omega
  rw [absorbedLanes, absorbBlock_of_length_le (by omega), hq, absorbedBlocks_succ, absorbBlock_concat]

/-! ### The padding -/

/-- Zeros after the bytes are what reading past their end gives. -/
theorem getD_append_zeros (m : List Byte) (n k : Nat) : (m ++ List.replicate n 0#8).getD k 0#8 = m.getD k 0#8 := by
  rcases Nat.lt_or_ge k m.length with h | h
  · exact List.getD_append _ _ _ _ h
  · rw [List.getD_append_right _ _ _ _ h, List.getD_eq_getElem?_getD,
      List.getElem?_getD_replicate_default_eq, List.getD_eq_default _ _ h]

/-- Byte `k` after one byte is XORed with `b`. -/
theorem getD_modify_xor {l : List Byte} {i : Nat} (hi : i < l.length) (b : Byte) (k : Nat) :
    (l.modify i (· ^^^ b)).getD k 0#8 = l.getD k 0#8 ^^^ (if k = i then b else 0#8) := by
  rw [List.getD_eq_getElem?_getD, List.getD_eq_getElem?_getD, List.getElem?_modify]
  by_cases h : k = i
  · subst h
    simp [hi]
  · simp [h, Ne.symm h]

/-- Byte `k` of the padded message: the message's byte or 0, with the domain byte after the message and the end marker
at the end of the last block (R148). -/
theorem getD_padMessage (m : List Byte) (k : Nat) :
    (padMessage m).getD k 0#8 =
      m.getD k 0#8 ^^^ (if k = m.length then Config.domainByte else 0#8) ^^^
        (if k = 136 * (m.length / 136) + 135 then Config.endMarker else 0#8) := by
  have hend : paddedLength m.length - 1 = 136 * (m.length / 136) + 135 := by unfold paddedLength; omega
  have hlen : m.length < paddedLength m.length := by unfold paddedLength; omega
  rw [padMessage, getD_modify_xor (by simp; omega), getD_modify_xor (by simp; omega), getD_append_zeros, hend]

/-- The bytes after FINALIZE's padding: two XORs, which may meet in one byte (R144, C5). -/
theorem State.getByte_pad_eq_xor (s : State) (a : Fin 200) :
    getByte s.pad.lanes a =
      getByte s.lanes a ^^^ (if a = cursorAddr s then Config.domainByte else 0#8) ^^^
        (if a.val = 135 then Config.endMarker else 0#8) := by
  have hend : a = endMarkerAddr ↔ a.val = 135 := Fin.ext_iff
  rw [State.getByte_pad]
  simp only [hend]
  split_ifs <;> simp only [BitVec.xor_zero]

/-- The last block of the padded message is what the message left, padded as FINALIZE does it (R144, R148). -/
theorem spongeState_eq_keccakF_pad {m : List Byte} {s : State} (hl : s.lanes = absorbedLanes m)
    (hc : s.cursor = messageCursor m) : spongeState m = keccakF s.pad.lanes := by
  have hfull : absorbedBlocks (padMessage m) (m.length / 136) = absorbedBlocks m (m.length / 136) :=
    absorbedBlocks_congr fun k hk => by
      rw [getD_padMessage, if_neg (by omega), if_neg (by omega), BitVec.xor_zero, BitVec.xor_zero]
  rw [spongeState_eq_absorbedBlocks, absorbedBlocks_succ, hfull]
  refine congrArg keccakF (lanes_eq_of_getByte_eq _ _ fun a => ?_)
  have hcursor : a = cursorAddr s ↔ a.val = m.length % 136 := by rw [cursorAddr, hc]; exact Fin.ext_iff
  have hn : 136 * (m.length / 136) + a.val = m.length ↔ a.val = m.length % 136 := by omega
  rw [State.getByte_pad_eq_xor, hl, absorbedLanes, getByte_absorbBlock, getByte_absorbBlock, getD_padMessage]
  simp only [hcursor, hn, Nat.add_left_cancel_iff]
  split
  case isTrue => simp only [BitVec.xor_assoc]
  case isFalse h => rw [if_neg (by omega), if_neg (by omega), BitVec.xor_zero, BitVec.xor_zero]

end Sys2Proof.Machine
end

section
/-! PROOFS. The status word as two bytes, and what its flags are after an error event (spec/10_state.md R33,
spec/60_exceptions.md R181, R182). -/

namespace Sys2Proof.Machine

/-- The low byte of the status word (R33). -/
def statusFlags (p : Phase) (busy errSeq errIll : Bool) : BitVec 8 :=
  (0#2) ++ bit (p == .finalized) ++ bit errIll ++ bit errSeq ++ phaseCode p ++ bit busy

/-- The status word is the cursor's byte above the flags' byte (R33). -/
theorem statusO_eq_append (s : State) :
    statusO s = BitVec.ofNat 8 s.cursor.val ++ statusFlags s.phase s.busy s.errSeq s.errIll := by
  apply BitVec.eq_of_toNat_eq
  simp only [statusO, statusFlags, digestValid, BitVec.toNat_append, Nat.shiftLeft_or_distrib, ← Nat.shiftLeft_add,
    Nat.or_assoc]

/-- ORing a mask into the flags. -/
theorem append_or_low (c x y : BitVec 8) : c ++ (x ||| y) = (c ++ x) ||| (0x00#8 ++ y) := by
  rw [BitVec.or_append, BitVec.or_zero]

/-- An error event sets its bit of the status word (R181, R182). -/
theorem statusO_raise (s : State) (e : ErrorEvent) : statusO (s.raise e) = statusO s ||| (1#16 <<< e.statusBit) := by
  have hseq : ∀ p busy errSeq errIll,
      statusFlags p busy true errIll = statusFlags p busy errSeq errIll ||| 0x08#8 := by
    intro p
    cases p <;> decide
  have hill : ∀ p busy errSeq errIll,
      statusFlags p busy errSeq true = statusFlags p busy errSeq errIll ||| 0x10#8 := by
    intro p
    cases p <;> decide
  rw [statusO_eq_append, statusO_eq_append]
  cases e with
  | seqError =>
    have hbit : 1#16 <<< ErrorEvent.seqError.statusBit = 0x00#8 ++ 0x08#8 := rfl
    rw [hbit, ← append_or_low, ← hseq]
    rfl
  | illegalCommand w =>
    have hbit : 1#16 <<< (ErrorEvent.illegalCommand w).statusBit = 0x00#8 ++ 0x10#8 :=
      show 1#16 <<< 4 = 0x00#8 ++ 0x10#8 from rfl
    rw [hbit, ← append_or_low, ← hill]
    rfl

end Sys2Proof.Machine
end

section
/-! PROOFS. Each command's outcome by the phase, and the words of INIT, a message and FINALIZE carried out one after the
other (spec/41_sponge.md R142 to R148). -/

namespace Sys2Proof.Machine

/-! ### One command -/

/-- ABSORB outside phase FINALIZED (R143). -/
theorem exec_absorb {s : State} (hp : s.phase ≠ .finalized) (b : Byte) :
    exec (.absorb b) s = .next (s.xorState (cursorAddr s) b).advanceCursor := if_neg hp

/-- FINALIZE outside phase FINALIZED (R144). -/
theorem exec_finalize {s : State} (hp : s.phase ≠ .finalized) :
    exec .finalize s = .next (s.pad.setPhase .finalizing).startPE := if_neg hp

/-- A command's word runs the command (R83). -/
theorem acceptWord_encode (i : Instr) (s : State) : acceptWord (encode i) s = exec i s := by
  rw [acceptWord, decode_encode]

/-- A command's word carried out whole. -/
theorem State.runWord_encode {i : Instr} {s t : State} (h : exec i s = .next t) :
    s.runWord (encode i) = .next t.settle := by
  rw [State.runWord, acceptWord_encode, h]

/-- A sequence of words, its first word carried out. -/
theorem State.runWords_cons {s t : State} {w : CmdWord} (h : s.runWord w = .next t) (ws : List CmdWord) :
    s.runWords (w :: ws) = t.runWords ws := by
  rw [State.runWords, h]

/-- A permutation that was just started, finished: all 24 rounds (R113, R115). -/
theorem State.settle_startPE (s : State) :
    s.startPE.settle =
      { s with lanes := keccakF s.lanes, busy := false, round := 0, phase := finishPhase s.phase } :=
  s.startPE.settle_of_busy rfl

/-- ABSORB's cursor update on an idle core, with the permutation it may start finished (R143). -/
theorem State.settle_advanceCursor {s : State} (hb : s.busy = false) (hr : s.round = 0) (hp : s.phase ≠ .finalizing) :
    s.advanceCursor.settle =
      if s.cursor = lastOffset then { s with lanes := keccakF s.lanes, cursor := 0 }
      else { s with cursor := s.cursor + 1 } := by
  unfold State.advanceCursor
  split
  case isTrue => simp [State.settle_startPE, State.setCursor, finishPhase_of_ne hp, ← hb, ← hr]
  case isFalse => exact State.settle_of_idle _ hb

/-- The edges a running permutation still takes (R116). -/
def State.edgesLeft (s : State) : Nat := if s.busy then 24 - s.round.val else 0

/-- ABSORB's cursor update starts a permutation at the end of the block (R143, R215). -/
theorem State.edgesLeft_advanceCursor {s : State} (hb : s.busy = false) :
    s.advanceCursor.edgesLeft = if s.cursor = lastOffset then 24 else 0 := by
  rcases s.advanceCursor_cases with ⟨hc, ht⟩ | ⟨hc, ht⟩ <;> simp [ht, hc, State.edgesLeft, hb]

/-! ### A message -/

/-- The byte that fills its block leaves the cursor at 0. -/
theorem messageCursor_concat_of_eq {m : List Byte} (h : m.length % 136 = 135) (b : Byte) :
    messageCursor (m ++ [b]) = 0 := by
  apply Fin.ext
  rw [Fin.val_zero]
  simp only [messageCursor, List.length_append, List.length_singleton]
  omega

/-- Another byte moves the cursor on. -/
theorem messageCursor_concat_of_ne {m : List Byte} (h : m.length % 136 ≠ 135) (b : Byte) :
    messageCursor (m ++ [b]) = messageCursor m + 1 := by
  apply Fin.ext
  rw [cursor_succ_val _ fun e => h (congrArg Fin.val e)]
  simp only [messageCursor, List.length_append, List.length_singleton]
  omega

/-- The registers after INIT and the ABSORBs of `m`, each carried out whole. -/
def messageState (m : List Byte) (ds : List PortIn) : State :=
  { State.reset with lanes := absorbedLanes m, cursor := messageCursor m, drive := ds }

/-- The registers after INIT, the ABSORBs of `m` and FINALIZE, each carried out whole. -/
def hashedState (m : List Byte) (ds : List PortIn) : State :=
  { messageState m ds with lanes := spongeState m, phase := .finalized }

section

variable (m : List Byte) (ds : List PortIn)

@[simp] theorem messageState_lanes : (messageState m ds).lanes = absorbedLanes m := by rw [messageState]
@[simp] theorem messageState_cursor : (messageState m ds).cursor = messageCursor m := rfl
@[simp] theorem messageState_phase : (messageState m ds).phase = .ready := rfl
@[simp] theorem hashedState_drive : (hashedState m ds).drive = ds := rfl

end

/-- The message state by its lanes and its cursor. -/
theorem messageState_eq {m : List Byte} {A : Lanes} {c : Fin 136} (hA : absorbedLanes m = A) (hc : messageCursor m = c)
    (ds : List PortIn) : messageState m ds = { State.reset with lanes := A, cursor := c, drive := ds } := by
  rw [messageState, hA, hc]

/-- INIT from an idle state begins the empty message (R142). -/
theorem exec_init_of_idle {s : State} (hb : s.busy = false) : exec .init s = .next (messageState [] s.drive) := by
  have hnil : messageState [] s.drive = { State.reset with drive := s.drive } := by
    rw [messageState_eq absorbedLanes_nil rfl]
    rfl
  exact hnil ▸ execInit_of_idle s hb

/-- INIT before other words (R142). -/
theorem runWords_init {s : State} (hb : s.busy = false) (ws : List CmdWord) :
    s.runWords (encode .init :: ws) = (messageState [] s.drive).runWords ws :=
  State.runWords_cons (State.runWord_encode (exec_init_of_idle hb)) ws

/-- One ABSORB more: the byte that fills its block starts the PE, and once that is finished the message is one byte
longer (R143). -/
theorem exec_absorb_messageState (m : List Byte) (ds : List PortIn) (b : Byte) :
    ∃ t, exec (.absorb b) (messageState m ds) = .next t ∧ t.settle = messageState (m ++ [b]) ds ∧
      t.edgesLeft = if messageCursor m = lastOffset then 24 else 0 := by
  refine ⟨_, exec_absorb (by simp) b, ?_, State.edgesLeft_advanceCursor rfl⟩
  rw [State.settle_advanceCursor rfl rfl (by simp)]
  split
  case isTrue hc =>
    have hlen : m.length % 136 = 135 := congrArg Fin.val hc
    rw [messageState_eq (absorbedLanes_concat_of_eq hlen b) (messageCursor_concat_of_eq hlen b)]
    rfl
  case isFalse hc =>
    have hlen : m.length % 136 ≠ 135 := fun h => hc (Fin.ext h)
    rw [messageState_eq (absorbedLanes_concat_of_ne hlen b) (messageCursor_concat_of_ne hlen b)]
    rfl

/-- FINALIZE after the message: the padded last block, permuted (R144). -/
theorem exec_finalize_messageState (m : List Byte) (ds : List PortIn) :
    ∃ t, exec .finalize (messageState m ds) = .next t ∧ t.settle = hashedState m ds ∧ t.edgesLeft = 24 := by
  refine ⟨_, exec_finalize (by simp), ?_, rfl⟩
  have hpad := spongeState_eq_keccakF_pad (messageState_lanes m ds) (messageState_cursor m ds)
  rw [State.settle_startPE, hashedState, hpad]
  rfl

/-- The ABSORBs of a message, by induction on its last byte. -/
theorem runWords_absorbWords (m : List Byte) (ds : List PortIn) :
    (messageState [] ds).runWords (absorbWords m) = .next (messageState m ds) := by
  induction m using List.reverseRecOn with
  | nil => rfl
  | append_singleton m b ih =>
    obtain ⟨t, ht, hsettle, _⟩ := exec_absorb_messageState m ds b
    rw [absorbWords, List.map_append, ← absorbWords, State.runWords_append _ _ _ _ ih, List.map_singleton,
      State.runWords_cons (State.runWord_encode ht), hsettle]
    rfl

/-- The digest port then shows the message's digest (R35, R148). -/
theorem digestO_hashedState (m : List Byte) (ds : List PortIn) : digestO (hashedState m ds) = keccak256 m := by
  have hvalid : digestValid (hashedState m ds) = true := rfl
  rw [digestO, if_pos hvalid, keccak256, hashedState]

/-- The status word then: the padding position, DV, phase FINALIZED and no error (R33, R148). -/
theorem statusO_hashedState (m : List Byte) (ds : List PortIn) :
    statusO (hashedState m ds) = BitVec.ofNat 8 (m.length % 136) ++ 0x24#8 := by
  have hflags : statusFlags .finalized false false false = 0x24#8 := by decide
  rw [statusO_eq_append, ← hflags, hashedState]
  rfl

/-- Settles O56: INIT begins the empty message, the ABSORBs lengthen it, and FINALIZE pads and permutes its last
block. -/
theorem hashGivesKeccak256 : Obligations.HashGivesKeccak256 := by
  intro m s hb
  obtain ⟨t, ht, hsettle, _⟩ := exec_finalize_messageState m s.drive
  refine ⟨hashedState m s.drive, ?_, rfl, digestO_hashedState m _, statusO_hashedState m _, hashedState_drive m _⟩
  rw [hashWords, List.cons_append, runWords_init hb, State.runWords_append _ _ _ _ (runWords_absorbWords m s.drive),
    State.runWords_cons (State.runWord_encode ht), hsettle, State.runWords]

end Sys2Proof.Machine
end

section
/-! PROOFS. The eager host: the words it presents go in one an edge while the PE is idle, and a running permutation
takes its edges (spec/70_reset_and_hazards.md R210, R211, R215, R216). -/

namespace Sys2Proof.Machine

/-! ### Edges in a row that show no digest -/

/-- `n` edges lead from `s` to `t`, and no digest is shown before the last of them. -/
def LeadsUnseen (n : Nat) (s t : State) : Prop :=
  runEdges n s = .next t ∧ ∀ k, k < n → ∃ u, runEdges k s = .next u ∧ digestValid u = false

theorem LeadsUnseen.refl (s : State) : LeadsUnseen 0 s s := ⟨rfl, fun k hk => absurd hk (Nat.not_lt_zero k)⟩

/-- One edge more at the front. -/
theorem LeadsUnseen.cons {n : Nat} {s t u : State} (hs : step s = .next t) (hv : digestValid s = false)
    (h : LeadsUnseen n t u) : LeadsUnseen (n + 1) s u := by
  obtain ⟨hrun, hunseen⟩ := h
  refine ⟨by rw [runEdges, hs]; exact hrun, fun k hk => ?_⟩
  cases k with
  | zero => exact ⟨s, rfl, hv⟩
  | succ k =>
    rw [runEdges, hs]
    exact hunseen k (Nat.lt_of_succ_lt_succ hk)

/-- Two stretches of edges. -/
theorem LeadsUnseen.trans {n k : Nat} {s t u : State} (h : LeadsUnseen n s t) (h' : LeadsUnseen k t u) :
    LeadsUnseen (n + k) s u := by
  induction n generalizing s with
  | zero =>
    obtain ⟨hrun, _⟩ := h
    cases hrun
    rwa [Nat.zero_add]
  | succ n ih =>
    obtain ⟨hrun, hunseen⟩ := h
    obtain ⟨v, hv⟩ := step_total s
    obtain ⟨_, hs, hvs⟩ := hunseen 0 (Nat.succ_pos n)
    cases hs
    rw [runEdges, hv] at hrun
    have hlater : LeadsUnseen n v t := ⟨hrun, fun k hk => by
      obtain ⟨w, hw, hvw⟩ := hunseen (k + 1) (Nat.succ_lt_succ hk)
      rw [runEdges, hv] at hw
      exact ⟨w, hw, hvw⟩⟩
    rw [Nat.succ_add]
    exact (ih hlater).cons hv hvs

/-! ### One edge with the host attached -/

/-- A round step does not look at what the host will drive. -/
theorem State.peRound_withDrive (s : State) (ds : List PortIn) :
    ({ s with drive := ds } : State).peRound = { s.peRound with drive := ds } := by
  unfold State.peRound
  split <;> rfl

/-- A round edge (R140, R114). -/
theorem edge_of_busy {p : PortIn} {s : State} (hr : p.rst = false) (hb : s.busy = true) :
    edge p s = .next s.peRound := by
  simp [edge, hr, hb]

/-- An accept edge (R140). -/
theorem edge_of_word {p : PortIn} {s : State} (hr : p.rst = false) (hb : s.busy = false) (hv : p.cmdValid = true) :
    edge p s = acceptWord p.cmdWord s := by
  simp [edge, hr, hb, hv]

/-- An edge does not look at what the host will drive. -/
theorem edge_withDrive {p : PortIn} {s t : State} (ds : List PortIn) (h : edge p s = .next t) :
    edge p { s with drive := ds } = .next { t with drive := ds } := by
  rcases edge_cases p s t h with ⟨hr, rfl⟩ | ⟨hr, hb, rfl⟩ | ⟨hr, hb, hv, hw⟩ | ⟨hr, hb, hv, rfl⟩
  · simp [edge, hr, State.resetRegs]
  · rw [edge_of_busy (s := { s with drive := ds }) hr hb, State.peRound_withDrive]
  · rw [edge_of_word (s := { s with drive := ds }) hr hb hv, acceptWord_withDrive _ _ _ ds hw]
  · simp [edge, hr, hb, hv]

/-- An edge with the host attached: the host goes on with the words that are left. -/
theorem step_withEagerHost {ws : List CmdWord} {s t : State} (n : Nat) (h : edge (hostPort ws) s = .next t) :
    step (s.withEagerHost (n + 1) ws) = .next (t.withEagerHost n (remainingWords ws s)) := by
  have hdrive : eagerDrive (n + 1) ws s = hostPort ws :: eagerDrive n (remainingWords ws s) t := by
    simp [eagerDrive, h]
  have hport : (s.withEagerHost (n + 1) ws).port = hostPort ws := by
    simp [State.port, State.withEagerHost, hdrive]
  have hnext : (s.withEagerHost (n + 1) ws).nextCycle = { s with drive := eagerDrive n (remainingWords ws s) t } := by
    simp [State.nextCycle, State.withEagerHost, hdrive]
  rw [step, hport, hnext, edge_withDrive _ h, State.withEagerHost]

/-- The eager host never resets the core. -/
theorem hostPort_rst (ws : List CmdWord) : (hostPort ws).rst = false := by
  cases ws <;> rfl

/-- While the PE runs an edge is a round step, and the host holds its word (R114, R211). -/
theorem step_withEagerHost_of_busy {s : State} (hb : s.busy = true) (n : Nat) (ws : List CmdWord) :
    step (s.withEagerHost (n + 1) ws) = .next (s.peRound.withEagerHost n ws) := by
  have hedge : edge (hostPort ws) s = .next s.peRound := edge_of_busy (hostPort_rst ws) hb
  have hleft : remainingWords ws s = ws := by simp [remainingWords, accepts, cmdReady, hb]
  rw [step_withEagerHost n hedge, hleft]

/-- While the PE is idle the host's next word is accepted (R31, R211). -/
theorem step_withEagerHost_of_idle {i : Instr} {s t : State} (hb : s.busy = false) (h : exec i s = .next t) (n : Nat)
    (ws : List CmdWord) : step (s.withEagerHost (n + 1) (encode i :: ws)) = .next (t.withEagerHost n ws) := by
  have hedge : edge (hostPort (encode i :: ws)) s = .next t := by
    rw [edge_of_word rfl hb rfl, ← h]
    exact acceptWord_encode i s
  have hleft : remainingWords (encode i :: ws) s = ws := by
    simp [remainingWords, accepts, cmdReady, hostPort, PortIn.present, hb]
  rw [step_withEagerHost n hedge, hleft]

/-! ### A word with the permutation it starts -/

/-- No edge is left exactly where the PE is idle. -/
theorem State.edgesLeft_eq_zero_iff (s : State) : s.edgesLeft = 0 ↔ s.busy = false := by
  unfold State.edgesLeft
  split
  case isTrue hb =>
    have hlt : s.round.val < 24 := s.round.isLt
    simp only [hb, Bool.true_eq_false, iff_false]
    omega
  case isFalse hb => simpa using hb

/-- A round step is one of the edges that are left (R114). -/
theorem State.edgesLeft_peRound {s : State} (hb : s.busy = true) : s.peRound.edgesLeft + 1 = s.edgesLeft := by
  unfold State.edgesLeft
  rcases s.peRound_cases with ⟨hr, ht⟩ | ⟨hr, ht⟩
  · simp [ht, hb, hr]
  · have hlt : s.round.val < 24 := s.round.isLt
    have hne : s.round.val ≠ 23 := fun h => hr (Fin.ext h)
    simp only [ht, hb, if_true, round_succ_val _ hr]
    omega

/-- No digest is shown while the PE runs (R39). -/
theorem State.Inv.not_digestValid {s : State} (hs : s.Inv) (hb : s.busy = true) : digestValid s = false := by
  rw [← Bool.not_eq_true, digestValid_iff]
  intro hp
  simp [hs.finalizedIdle hp] at hb

/-- A running permutation ends after the edges that are left of it, with no digest before (R116, R210). -/
theorem leadsUnseen_settle {s : State} (hs : s.Inv) (n : Nat) (ws : List CmdWord) :
    LeadsUnseen s.edgesLeft (s.withEagerHost (s.edgesLeft + n) ws) (s.settle.withEagerHost n ws) := by
  induction hk : s.edgesLeft generalizing s with
  | zero =>
    rw [State.settle_of_idle s ((s.edgesLeft_eq_zero_iff).1 hk), Nat.zero_add]
    exact .refl _
  | succ k ih =>
    have hb : s.busy = true := by
      rw [← Bool.not_eq_false, ← s.edgesLeft_eq_zero_iff, hk]
      exact Nat.succ_ne_zero k
    have hleft : s.peRound.edgesLeft = k := Nat.succ_inj.1 ((State.edgesLeft_peRound hb).trans hk)
    rw [Nat.succ_add, ← State.settle_peRound s hb]
    exact (ih (hs.after_peRound hb) hleft).cons (step_withEagerHost_of_busy hb _ ws) (hs.not_digestValid hb)

/-- A command's word goes in at one edge, and the permutation it starts takes its edges (R211, R215). -/
theorem leadsUnseen_exec {i : Instr} {s t : State} (hs : s.Inv) (hb : s.busy = false) (hv : digestValid s = false)
    (h : exec i s = .next t) (n : Nat) (ws : List CmdWord) :
    LeadsUnseen (t.edgesLeft + 1) (s.withEagerHost (t.edgesLeft + 1 + n) (encode i :: ws))
      (t.settle.withEagerHost n ws) := by
  rw [Nat.add_right_comm]
  exact (leadsUnseen_settle (hs.after_exec h) n ws).cons (step_withEagerHost_of_idle hb h _ ws) hv

/-! ### A message -/

/-- The edges the ABSORBs of `n` bytes take: one a byte, and 24 for each full block (R215, R216). -/
def absorbEdges (n : Nat) : Nat := n + 24 * (n / 136)

/-- INIT's edge, the ABSORBs' edges, and FINALIZE's edge with its permutation (R216). -/
theorem digestEdge_eq (n : Nat) : digestEdge n = absorbEdges n + 25 + 1 := by
  rw [digestEdge, absorbEdges]
  omega

/-- The ABSORBs of a message, by induction on its last byte. -/
theorem leadsUnseen_absorbWords (m : List Byte) (ds : List PortIn) (n : Nat) (ws : List CmdWord) :
    LeadsUnseen (absorbEdges m.length)
      ((messageState [] ds).withEagerHost (absorbEdges m.length + n) (absorbWords m ++ ws))
      ((messageState m ds).withEagerHost n ws) := by
  induction m using List.reverseRecOn generalizing n ws with
  | nil => exact (Nat.zero_add n).symm ▸ .refl _
  | append_singleton m b ih =>
    obtain ⟨t, ht, hsettle, hleft⟩ := exec_absorb_messageState m ds b
    have hlast : messageCursor m = lastOffset ↔ m.length % 136 = 135 := Fin.ext_iff
    have hedges : absorbEdges (m ++ [b]).length = absorbEdges m.length + (t.edgesLeft + 1) := by
      simp only [hleft, hlast, absorbEdges, List.length_append, List.length_singleton]
      split <;> omega
    have hwords : absorbWords (m ++ [b]) ++ ws = absorbWords m ++ encode (.absorb b) :: ws := by simp [absorbWords]
    have hs : (messageState m ds).Inv := State.inv_of_ready rfl rfl
    rw [hedges, hwords, Nat.add_assoc, ← hsettle]
    exact (ih _ _).trans (leadsUnseen_exec hs rfl rfl ht n ws)

/-- A hash's words after INIT, to the edge that shows the digest (R216). -/
theorem leadsUnseen_hash (m : List Byte) (ds : List PortIn) :
    LeadsUnseen (absorbEdges m.length + 25)
      ((messageState [] ds).withEagerHost (absorbEdges m.length + 25) (absorbWords m ++ [encode .finalize]))
      ((hashedState m ds).withEagerHost 0 []) := by
  obtain ⟨t, ht, hsettle, hleft⟩ := exec_finalize_messageState m ds
  have hs : (messageState m ds).Inv := State.inv_of_ready rfl rfl
  have hfinalize := leadsUnseen_exec hs rfl rfl ht 0 []
  rw [hleft, hsettle] at hfinalize
  exact (leadsUnseen_absorbWords m ds 25 _).trans hfinalize

/-- Settles O57: after INIT's edge no digest is shown, and the words after it lead to the hashed state. -/
theorem digestEdgeOfEagerHost : Obligations.DigestEdgeOfEagerHost := by
  intro m s hb
  have hinit := step_withEagerHost_of_idle hb (exec_init_of_idle hb) (absorbEdges m.length + 25)
    (absorbWords m ++ [encode .finalize])
  obtain ⟨hrun, hunseen⟩ := leadsUnseen_hash m s.drive
  rw [digestEdge_eq, hashWords, List.cons_append]
  refine ⟨fun k hlow hk => ?_, ?_⟩
  · obtain ⟨k, rfl⟩ := Nat.exists_eq_add_of_le' hlow
    obtain ⟨u, hu, hv⟩ := hunseen k (Nat.lt_of_succ_lt_succ hk)
    refine ⟨u, ?_, hv, by simp [digestO, hv]⟩
    rw [runEdges, hinit]
    exact hu
  · refine ⟨(hashedState m s.drive).withEagerHost 0 [], ?_, rfl, ?_⟩
    · rw [runEdges, hinit]
      exact hrun
    · exact (digestO_congr rfl rfl).trans (digestO_hashedState m s.drive)

end Sys2Proof.Machine
end

section
/-! PROOFS. What one edge and each command does to the registers (spec/41_sponge.md R140 to R146). -/

namespace Sys2Proof.Machine

/-! ### One edge -/

/-- An edge with the PE idle and no word presented (R140). -/
theorem step_of_idle {s : State} (hr : s.port.rst = false) (hb : s.busy = false) (hv : s.port.cmdValid = false) :
    step s = .next s.nextCycle := by
  simp [step, edge, hr, hb, hv]

/-- The accept edge of an illegal word (R145). -/
theorem step_of_accepts_illegal {s : State} {w : CmdWord} {e : IllegalWord} (h : s.Accepts w)
    (he : decode w = .error e) : step s = .next (s.nextCycle.raise (.illegalCommand e.word)) := by
  rw [step_of_accepts h, acceptWord, he]

/-- Settles O25: one rule of the edge for each alternative. -/
theorem edgePrecedence : Obligations.EdgePrecedence := by
  intro s
  refine ⟨step_of_rst, step_of_busy, fun hr hb hv => ?_, step_of_idle⟩
  have ha : s.Accepts s.port.cmdWord := (s.accepts_iff _).2 ⟨hr, hb, hv, rfl⟩
  exact ⟨fun i hi => by rw [step_of_accepts ha, acceptWord, hi], fun e he => step_of_accepts_illegal ha he⟩

/-- Settles O30: an illegal word decodes to an error, which raises its event; the event sets its status bit. -/
theorem illegalWordSetsErrIllOnly : Obligations.IllegalWordSetsErrIllOnly := by
  intro s w ha hw
  obtain ⟨e, he⟩ : ∃ e, decode w = .error e := by
    cases hd : decode w with
    | ok i => simp [(legal_iff_decode w).2 ⟨i, hd⟩] at hw
    | error e => exact ⟨e, rfl⟩
  refine ⟨_, step_of_accepts_illegal ha he, rfl, rfl, rfl, rfl, rfl, rfl, rfl, rfl,
    digestO_congr rfl rfl, fun h => ?_⟩
  have hstatus : statusO s.nextCycle = 0x0000#16 := h
  rw [statusO_raise, hstatus]
  exact show 0x0000#16 ||| 1#16 <<< 4 = 0x0010#16 from rfl

/-! ### NOP and INIT -/

/-- OP of a word made of fields (R80). -/
theorem op_ofFields (op rsv : BitVec 4) (data : Byte) : (CmdWord.ofFields op rsv data).extractLsb' 12 4 = op := by
  rw [CmdWord.ofFields, BitVec.extractLsb'_append_eq_of_le (by omega),
    BitVec.extractLsb'_append_eq_of_le (by omega), BitVec.extractLsb'_eq_self]

/-- NOP is the one command with OP = 0 (R82). -/
theorem eq_nop_of_encode_op {i : Instr} (h : (encode i).extractLsb' 12 4 = 0#4) : i = .nop := by
  cases i with
  | nop => rfl
  | init => exact absurd h (by decide)
  | absorb b => exact absurd ((op_ofFields 0x2#4 0x0#4 b).symm.trans h) (by decide)
  | finalize => exact absurd h (by decide)

/-- Settles O31: NOP's arm is the identity, and NOP's word is the one legal word with OP = 0. -/
theorem nopChangesNothing : Obligations.NopChangesNothing := by
  refine ⟨fun _ => rfl, rfl, fun w => (decodeEncodeAgree w .nop).trans eq_comm, fun w hop hw => ?_⟩
  cases hd : decode w with
  | ok i =>
    obtain rfl : encode i = w := encode_of_decode w i hd
    rw [eq_nop_of_encode_op hop] at hw
    exact absurd rfl hw
  | error e => exact ⟨e, rfl⟩

/-- Settles O32: INIT is `clearRegs`, which is idempotent and does not write `busy`. -/
theorem initClearsRegisters : Obligations.InitClearsRegisters := by
  intro s
  refine ⟨s.clearRegs, rfl, getByte_zeroLanes, rfl, rfl, rfl, rfl, rfl, rfl, rfl, rfl, rfl, rfl, rfl, fun hb => ?_, rfl,
    fun hb => State.not_accepts_of_busy hb _⟩
  have hreset : s.clearRegs = { State.reset with drive := s.drive } :=
    Host.Outcome.next.inj (execInit_of_idle s hb)
  rw [hreset]
  exact statusO_reset

/-! ### ABSORB and FINALIZE -/

/-- Settles O33: below the last offset the cursor update only moves the cursor on. -/
theorem absorbWithinBlock : Obligations.AbsorbWithinBlock := by
  intro b s hp hc
  have hne : s.cursor ≠ lastOffset := fun h => absurd (congrArg Fin.val h) (Nat.ne_of_lt hc)
  refine ⟨_, exec_absorb hp b, fun a => ?_, ?_⟩
  · simp [getByte_xorByte]
  · rcases (s.xorState (cursorAddr s) b).advanceCursor_cases with ⟨hlast, _⟩ | ⟨_, ht⟩
    · exact absurd hlast hne
    · rw [ht]
      exact ⟨cursor_succ_val _ hne, rfl, rfl, rfl, rfl, rfl, rfl⟩

/-- Settles O35: the bytes by the padding's two XORs, every other register by FINALIZE's outcome. -/
theorem finalizePadsAndStarts : Obligations.FinalizePadsAndStarts := by
  intro s hp
  refine ⟨_, exec_finalize hp, s.getByte_pad_eq_xor, fun hc => ?_, rfl, rfl, rfl, rfl, rfl, rfl, rfl⟩
  have haddr : (135 : Fin 200) = cursorAddr s := Fin.ext hc.symm
  refine (s.getByte_pad_eq_xor 135).trans ?_
  rw [if_pos haddr, if_pos (show (135 : Fin 200).val = 135 from rfl), BitVec.xor_assoc]
  rfl

/-- Settles O36: both commands raise the misuse event, which sets its status bit. -/
theorem misuseSetsErrSeqOnly : Obligations.MisuseSetsErrSeqOnly := by
  intro s hp
  refine ⟨s.raise .seqError, fun _ => if_pos hp, if_pos hp, rfl, rfl, rfl, rfl, rfl, rfl, rfl, rfl,
    digestO_congr rfl rfl, fun h => ?_⟩
  rw [statusO_raise, h]
  rfl

/-- Settles O40: the accept edge, then the 24 edges of the permutation that FINALIZE started (R116). -/
theorem finalizeGivesDigest : Obligations.FinalizeGivesDigest := by
  intro s ha hp hn
  have hstep : step s = .next (s.nextCycle.pad.setPhase .finalizing).startPE :=
    (step_of_accepts_encode ha).trans (exec_finalize (by simp [hp]))
  have hlater := hn.tail s (s.nextCycle.pad.setPhase .finalizing).startPE 24 rfl
  obtain ⟨hrounds, t, ht, hlanes, hbusy, _, hphase, hcursor, _⟩ :=
    permutationTakesTwentyFourEdges _ rfl rfl hlater
  have hfinalized : t.phase = .finalized := hphase
  refine ⟨fun k hlow hhigh => ?_, t, ?_, hlanes, hfinalized, hbusy, hcursor, ?_⟩
  · obtain ⟨k, rfl⟩ := Nat.exists_eq_add_of_le' hlow
    obtain ⟨u, hu, hb, _, hup, _⟩ := hrounds ⟨k, hhigh⟩
    have hphase : u.phase = .finalizing := hup
    have hv : digestValid u = false := by simp [digestValid, hphase]
    refine ⟨u, ?_, hphase, hb, hv, by simp [digestO, hv]⟩
    rw [runEdges, hstep]
    exact hu
  · rw [runEdges, hstep]
    exact ht
  · have hv : digestValid t = true := (digestValid_iff t).2 hfinalized
    exact ⟨hv, by rw [digestO, if_pos hv, hlanes]; rfl⟩

end Sys2Proof.Machine
end

section
/-! PROOFS. Sequences of words: what INIT forgets, NOPs that drop out, the source's operations (spec/41_sponge.md R147,
R149, R151). -/

namespace Sys2Proof.Machine

/-- Settles O53: both runs go on from the registers INIT leaves, and no word looks at what the host drives. -/
theorem initForgetsHistory : Obligations.InitForgetsHistory := by
  intro s s' ws hb hb'
  obtain ⟨t, ht⟩ := State.runWords_total ws (messageState [] s.drive)
  have ht' : (messageState [] s'.drive).runWords ws = .next { t with drive := s'.drive } :=
    State.runWords_withDrive ws s'.drive (messageState [] s.drive) t ht
  exact ⟨t, _, (runWords_init hb ws).trans ht, (runWords_init hb' ws).trans ht', rfl⟩

/-- Settles O54: NOP carried out from an idle state leads back to it, and every word leads to an idle state. -/
theorem nopsDropOut : Obligations.NopsDropOut := by
  intro s ws hb
  induction ws generalizing s with
  | nil => rfl
  | cons w ws ih =>
    obtain ⟨t, ht, hbt⟩ := s.runWord_total w
    by_cases hw : w = encode .nop
    · have hnop : s.runWord (encode .nop) = .next s := by
        rw [State.runWord_encode (i := .nop) rfl, State.settle_of_idle s hb]
      rw [hw, State.runWords_cons hnop, List.filter_cons_of_neg (by simp), ih s hb]
    · rw [List.filter_cons_of_pos (by simpa using hw), State.runWords_cons ht, State.runWords_cons ht, ih t hbt]

/-- Settles O8: each word by the encoder, the parts of a message by the list of its bytes. -/
theorem sourceOperationsAsWords : Obligations.SourceOperationsAsWords :=
  ⟨rfl, rfl, rfl, fun _ => rfl, fun _ _ => List.map_append, fun _ => rfl⟩

end Sys2Proof.Machine
end

section
/-! PROOFS. Known answers at the edge of the rate (spec/41_sponge.md R155, spec/95_test_vectors.md). Each run of the
permutation is evaluated by the kernel. -/

namespace Sys2Proof.Machine

/-- V-S5: 135 zero bytes. -/
theorem keccak256_zeros_below_rate : keccak256 (List.replicate 135 0x00#8) =
    0x3EBC9ADF103AFFCF#64 ++ 0xD9851D6EADF39C44#64 ++ 0x369B4DA00F9F22BA#64 ++ 0xB97FCAEE4F70E329#64 := by
  decide +kernel

/-- V-S7: 137 zero bytes; the first block leaves the zero state. -/
theorem keccak256_zeros_above_rate : keccak256 (List.replicate 137 0x00#8) =
    0x28BD73DCFF3C0442#64 ++ 0xA97F681F052D6B5D#64 ++ 0x4B5E4A8C335E77A8#64 ++ 0x910DCB05B4FBE7BE#64 := by
  have hfirst : absorbBlock (padMessage (List.replicate 137 0x00#8)) zeroLanes 0 = zeroLanes := by decide +kernel
  rw [keccak256, spongeState_of_two_blocks (by simp) (by simp), hfirst, keccakF_zeroLanes]
  decide +kernel

/-- Settles O22: V-S5, V-S6 and V-S7 are three different digests. -/
theorem rateEdgeDigestsDiffer : Obligations.RateEdgeDigestsDiffer := by
  refine ⟨?_, ?_, ?_⟩
  · rw [keccak256_zeros_below_rate, keccak256_zeros]
    decide
  · rw [keccak256_zeros_below_rate, keccak256_zeros_above_rate]
    decide
  · rw [keccak256_zeros, keccak256_zeros_above_rate]
    decide

end Sys2Proof.Machine
end

section
/-! PROOFS. When the error flags are set at an edge (spec/60_exceptions.md R181, R182). -/

namespace Sys2Proof.Machine

/-! ### Which word is accepted -/

/-- No word is accepted at a reset edge (R31). -/
theorem State.not_accepts_of_rst {s : State} (h : s.port.rst = true) (w : CmdWord) : ¬ s.Accepts w := by
  simp [State.accepts_iff, h]

/-- The accepted word is the only one, so an illegal word is accepted exactly where it is illegal. -/
theorem State.Accepts.exists_illegal_iff {s : State} {w : CmdWord} (h : s.Accepts w) :
    (∃ v, s.Accepts v ∧ CmdWord.legal v = false) ↔ CmdWord.legal w = false := by
  constructor
  · rintro ⟨v, hv, hlegal⟩
    exact h.2.symm.trans hv.2 ▸ hlegal
  · exact fun hlegal => ⟨w, h, hlegal⟩

/-- Every command's word is legal (R82). -/
theorem legal_encode (i : Instr) : CmdWord.legal (encode i) = true :=
  (legal_iff_decode _).2 ⟨i, decode_encode i⟩

/-! ### The flags -/

/-- Which commands set a clear `err_seq`: ABSORB and FINALIZE in phase FINALIZED (R146, R181). -/
theorem exec_sets_errSeq_iff {i : Instr} {s t : State} (h : exec i s = .next t) (hs : s.errSeq = false) :
    t.errSeq = true ↔ s.phase = .finalized ∧ ((∃ b, i = .absorb b) ∨ i = .finalize) := by
  rcases exec_cases i s t h with ⟨rfl, rfl⟩ | ⟨rfl, rfl⟩ | ⟨hi, hp, rfl⟩ | ⟨hi, hp, rfl⟩ | ⟨b, _, hp, rfl⟩ |
    ⟨_, hp, rfl⟩
  · simp [hs]
  · simp
  · simp [hi, hp]
  · simp [hi, hp]
  · simp [hs, hp]
  · simp [hs, hp]

/-- No command sets `err_ill` (R28). -/
theorem exec_keeps_errIll_clear {i : Instr} {s t : State} (h : exec i s = .next t) (hs : s.errIll = false) :
    t.errIll = false := by
  by_cases hi : i = .init
  · subst hi
    cases h
    rfl
  · exact (exec_keeps_errIll h hi).trans hs

/-- Which edges set a clear `err_seq` (R181). -/
theorem step_sets_errSeq_iff {s t : State} (h : step s = .next t) (hs : s.errSeq = false) :
    t.errSeq = true ↔
      s.phase = .finalized ∧ ((∃ b, s.Accepts (encode (.absorb b))) ∨ s.Accepts (encode .finalize)) := by
  rcases step_cases_by_command s t h with ⟨hr, rfl⟩ | ⟨_, hb, rfl⟩ | ⟨i, ha, hx⟩ | ⟨w, e, ha, he, rfl⟩ | ⟨_, _, hv, rfl⟩
  · simp [State.not_accepts_of_rst hr]
  · simp [State.not_accepts_of_busy hb, hs]
  · simp [exec_sets_errSeq_iff hx hs, ha.encode_iff]
  · simp [ha.not_encode he, hs]
  · simp [State.not_accepts_of_no_word hv, hs]

/-- Which edges set a clear `err_ill` (R182). -/
theorem step_sets_errIll_iff {s t : State} (h : step s = .next t) (hs : s.errIll = false) :
    t.errIll = true ↔ ∃ w, s.Accepts w ∧ CmdWord.legal w = false := by
  rcases step_cases_by_command s t h with ⟨hr, rfl⟩ | ⟨_, hb, rfl⟩ | ⟨i, ha, hx⟩ | ⟨w, e, ha, he, rfl⟩ | ⟨_, _, hv, rfl⟩
  · simp [State.not_accepts_of_rst hr]
  · simp [State.not_accepts_of_busy hb, hs]
  · simp [exec_keeps_errIll_clear hx hs, ha.exists_illegal_iff, legal_encode]
  · simp [ha.exists_illegal_iff, ((decode_eq_error_iff w e).1 he).1]
  · simp [State.not_accepts_of_no_word hv, hs]

/-- Settles O49: both flags are read off which edges set a clear flag. -/
theorem errorFlagsSetExactly : Obligations.ErrorFlagsSetExactly := fun _ _ h =>
  ⟨step_sets_errSeq_iff h, step_sets_errIll_iff h⟩

end Sys2Proof.Machine
end

section
/-! PROOFS. A reset edge (spec/70_reset_and_hazards.md R200, R201). -/

namespace Sys2Proof.Machine

/-- `cmd_ready` is 0 while `rst = 1`, whatever the registers hold (R32). -/
theorem ready_eq_false_of_rst {s : State} (h : s.port.rst = true) : (outputs s).ready = false := by
  simp [outputs, cmdReady, h]

/-- No word is taken in a cycle with `rst = 1`, whatever the host presents (R31). -/
theorem accepts_eq_false_of_rst {s : State} (h : s.port.rst = true) : accepts s.port s = false := by
  simp [accepts, h]

/-- Settles O44: the edge writes every register, and the ports then read the registers of the reset state. -/
theorem resetEdge : Obligations.ResetEdge := by
  intro s h
  obtain ⟨hlanes, _, hcursor, hphase, hbusy, hround, hseq, hill, hstatus, _, hdigest, _⟩ := resetValues
  exact ⟨s.nextCycle.resetRegs, step_of_rst h, rfl, hlanes, hcursor, hphase, hbusy, hround, hseq, hill, hstatus,
    hdigest, accepts_eq_false_of_rst h, ready_eq_false_of_rst h⟩

end Sys2Proof.Machine
end
